-- ==== Sys2Proof/Word.lean ====
section
/-! DEFINITION. The widths of spec/00_scope.md R7: registers and bus 32 bits, host word addresses 17,
output tokens 64, framed bytes 8. -/

namespace Sys2Proof

/-- One register, bus word or header-buffer cell (R7: `DW` = `CPW` = 32). -/
abbrev Word := BitVec 32

/-- One framed byte of a burst (R25, R140). -/
abbrev Byte := BitVec 8

/-- A host word address (R7: `AW` = 17; R60). -/
abbrev HostAddr := BitVec 17

/-- An output token as it stands on `out_data` (R7: `TW` = 64; R97). -/
abbrev TokenWord := BitVec 64

end Sys2Proof
end

