-- ==== Sys2Proof/Syntax.lean ====
section
/-! DEFINITION. The instruction set: one constructor per row of spec/opcode_table.json
(spec/30_encoding.md R101), and the eight encoder modes (R94). -/

namespace Sys2Proof

/-- The encoder modes of R94, in the order of their numbers 0 to 7. -/
inductive Mode where
  | default
  | sage
  | digital
  | trilithic
  | nws
  | broadcaster
  | npas
  | wea
deriving DecidableEq, Repr

/-- A command. `bp` is the word's `BP` bit (R92); `mode` of the two fallback rows is the word's `MODE`
field, 8 to 15 (R174, R199). Every other operand is a register named by the operation (R99). -/
inductive Instr where
  | mark
  | space
  | enc
  | hdrDefault (bp : Bool)
  | hdrSage (bp : Bool)
  | hdrDigital (bp : Bool)
  | hdrTrilithic (bp : Bool)
  | hdrNws (bp : Bool)
  | hdrBroadcaster (bp : Bool)
  | hdrNpas (bp : Bool)
  | hdrWea (bp : Bool)
  | hdrFallback (bp : Bool) (mode : BitVec 4)
  | eomDefault (bp : Bool)
  | eomSage (bp : Bool)
  | eomDigital (bp : Bool)
  | eomTrilithic (bp : Bool)
  | eomNws (bp : Bool)
  | eomBroadcaster (bp : Bool)
  | eomNpas (bp : Bool)
  | eomWea (bp : Bool)
  | eomFallback (bp : Bool) (mode : BitVec 4)
deriving DecidableEq, Repr

end Sys2Proof
end

