-- ==== Sys2Proof/WellFormed.lean ====
section
/-! DEFINITION. Which instructions the encoding of spec/30_encoding.md can spell: the `MODE` operand of a
fallback row is an unrecognized one, 8 to 15 (R94, R174, R199); every other operand is free. -/

namespace Sys2Proof

/-- R94: `MODE` 8 to 15 is unrecognized. -/
def unrecognizedMode (mode : BitVec 4) : Bool := 8 ≤ mode.toNat

/-- The check on an instruction's operands. -/
def Instr.wellFormed : Instr → Bool
  | .mark => true
  | .space => true
  | .enc => true
  | .hdrDefault _ => true
  | .hdrSage _ => true
  | .hdrDigital _ => true
  | .hdrTrilithic _ => true
  | .hdrNws _ => true
  | .hdrBroadcaster _ => true
  | .hdrNpas _ => true
  | .hdrWea _ => true
  | .hdrFallback _ mode => unrecognizedMode mode
  | .eomDefault _ => true
  | .eomSage _ => true
  | .eomDigital _ => true
  | .eomTrilithic _ => true
  | .eomNws _ => true
  | .eomBroadcaster _ => true
  | .eomNpas _ => true
  | .eomWea _ => true
  | .eomFallback _ mode => unrecognizedMode mode

end Sys2Proof
end

