-- ==== Sys2Proof/Decode.lean ====
section
/-! DEFINITION. The command word of spec/30_encoding.md: its fields (R91), the decoder, which names why it
rejects a word (R95, R96), the encoder, the mask and match table of R101, and the legality predicate of R95. -/

namespace Sys2Proof

/-- R91: bits 3:0. -/
def opField (w : Word) : BitVec 4 := w.extractLsb' 0 4

/-- R91: bits 7:4. -/
def modeField (w : Word) : BitVec 4 := w.extractLsb' 4 4

/-- R91: bit 8. -/
def bpField (w : Word) : Bool := w.getLsbD 8

/-- R91: bits 31:9. -/
def rsvField (w : Word) : BitVec 23 := w.extractLsb' 9 23

/-- The kinds of illegal word R96 lists, in its order (the names are the model's: log 20). -/
inductive Reject where
  /-- A bit of 31:9 is set. -/
  | reservedBits
  /-- `OP` = 0. -/
  | opZero
  /-- `OP` = 6 to 15. -/
  | opReserved
  /-- `OP` = 1, 2 or 3 with `MODE` other than 0. -/
  | modeWithoutMeaning
  /-- `OP` = 1, 2 or 3 with `BP` = 1. -/
  | bandpassWithoutMeaning
deriving DecidableEq, Repr

/-- What a 32-bit word is. -/
inductive Decoded where
  | ok (i : Instr)
  | rejected (why : Reject)
deriving DecidableEq, Repr

/-- The `HDR` row of a `MODE` value (R94, R101). -/
def hdrInstr (mode : BitVec 4) (bp : Bool) : Instr :=
  match mode.toNat with
  | 0 => .hdrDefault bp
  | 1 => .hdrSage bp
  | 2 => .hdrDigital bp
  | 3 => .hdrTrilithic bp
  | 4 => .hdrNws bp
  | 5 => .hdrBroadcaster bp
  | 6 => .hdrNpas bp
  | 7 => .hdrWea bp
  | _ => .hdrFallback bp mode

/-- The `EOM` row of a `MODE` value (R94, R101). -/
def eomInstr (mode : BitVec 4) (bp : Bool) : Instr :=
  match mode.toNat with
  | 0 => .eomDefault bp
  | 1 => .eomSage bp
  | 2 => .eomDigital bp
  | 3 => .eomTrilithic bp
  | 4 => .eomNws bp
  | 5 => .eomBroadcaster bp
  | 6 => .eomNpas bp
  | 7 => .eomWea bp
  | _ => .eomFallback bp mode

/-- `MARK`, `SPACE` and `ENC` take neither mode nor band-pass tag (R95, R96). -/
def plainInstr (i : Instr) (w : Word) : Decoded :=
  if modeField w ≠ 0 then .rejected .modeWithoutMeaning
  else if bpField w then .rejected .bandpassWithoutMeaning
  else .ok i

/-- The decoder, total on 32-bit words (R93, R95, R96). -/
def decode (w : Word) : Decoded :=
  if rsvField w ≠ 0 then .rejected .reservedBits
  else
    match (opField w).toNat with
    | 0 => .rejected .opZero
    | 1 => plainInstr .mark w
    | 2 => plainInstr .space w
    | 3 => plainInstr .enc w
    | 4 => .ok (hdrInstr (modeField w) (bpField w))
    | 5 => .ok (eomInstr (modeField w) (bpField w))
    | _ => .rejected .opReserved

/-- R95: legality as the spec writes it, on the fields alone. -/
def legalWord (w : Word) : Bool :=
  rsvField w == 0 && (1 ≤ (opField w).toNat && (opField w).toNat ≤ 5)
    && (4 ≤ (opField w).toNat || (modeField w == 0 && !bpField w))

/-- R91: `{RSV = 0, BP, MODE, OP}`. -/
def commandWord (bp : Bool) (mode op : BitVec 4) : Word :=
  0#23 ++ BitVec.ofBool bp ++ mode ++ op

/-- The command word of an instruction (R101). -/
def encode : Instr → Word
  | .mark => commandWord false 0 1
  | .space => commandWord false 0 2
  | .enc => commandWord false 0 3
  | .hdrDefault bp => commandWord bp 0 4
  | .hdrSage bp => commandWord bp 1 4
  | .hdrDigital bp => commandWord bp 2 4
  | .hdrTrilithic bp => commandWord bp 3 4
  | .hdrNws bp => commandWord bp 4 4
  | .hdrBroadcaster bp => commandWord bp 5 4
  | .hdrNpas bp => commandWord bp 6 4
  | .hdrWea bp => commandWord bp 7 4
  | .hdrFallback bp mode => commandWord bp mode 4
  | .eomDefault bp => commandWord bp 0 5
  | .eomSage bp => commandWord bp 1 5
  | .eomDigital bp => commandWord bp 2 5
  | .eomTrilithic bp => commandWord bp 3 5
  | .eomNws bp => commandWord bp 4 5
  | .eomBroadcaster bp => commandWord bp 5 5
  | .eomNpas bp => commandWord bp 6 5
  | .eomWea bp => commandWord bp 7 5
  | .eomFallback bp mode => commandWord bp mode 5

/-- The match column of R101. -/
def rowMatch : Instr → Word
  | .mark => 0x00000001
  | .space => 0x00000002
  | .enc => 0x00000003
  | .hdrDefault _ => 0x00000004
  | .hdrSage _ => 0x00000014
  | .hdrDigital _ => 0x00000024
  | .hdrTrilithic _ => 0x00000034
  | .hdrNws _ => 0x00000044
  | .hdrBroadcaster _ => 0x00000054
  | .hdrNpas _ => 0x00000064
  | .hdrWea _ => 0x00000074
  | .hdrFallback _ _ => 0x00000084
  | .eomDefault _ => 0x00000005
  | .eomSage _ => 0x00000015
  | .eomDigital _ => 0x00000025
  | .eomTrilithic _ => 0x00000035
  | .eomNws _ => 0x00000045
  | .eomBroadcaster _ => 0x00000055
  | .eomNpas _ => 0x00000065
  | .eomWea _ => 0x00000075
  | .eomFallback _ _ => 0x00000085

/-- The mask column of R101. -/
def rowMask : Instr → Word
  | .mark => 0xFFFFFFFF
  | .space => 0xFFFFFFFF
  | .enc => 0xFFFFFFFF
  | .hdrDefault _ => 0xFFFFFEFF
  | .hdrSage _ => 0xFFFFFEFF
  | .hdrDigital _ => 0xFFFFFEFF
  | .hdrTrilithic _ => 0xFFFFFEFF
  | .hdrNws _ => 0xFFFFFEFF
  | .hdrBroadcaster _ => 0xFFFFFEFF
  | .hdrNpas _ => 0xFFFFFEFF
  | .hdrWea _ => 0xFFFFFEFF
  | .hdrFallback _ _ => 0xFFFFFE8F
  | .eomDefault _ => 0xFFFFFEFF
  | .eomSage _ => 0xFFFFFEFF
  | .eomDigital _ => 0xFFFFFEFF
  | .eomTrilithic _ => 0xFFFFFEFF
  | .eomNws _ => 0xFFFFFEFF
  | .eomBroadcaster _ => 0xFFFFFEFF
  | .eomNpas _ => 0xFFFFFEFF
  | .eomWea _ => 0xFFFFFEFF
  | .eomFallback _ _ => 0xFFFFFE8F

/-- The command word of table bits `w`, of which `nbits` are given and the others are 0; a command is one 32-bit
word (R90), written whole, so it has no byte order. -/
def tableWord (nbits w : Nat) : Option Word :=
  if w % 2 ^ nbits < 2 ^ 32 then some (BitVec.ofNat 32 (w % 2 ^ nbits)) else none

/-- The instruction the decoder reads from table bits. -/
def decodeTableWord (nbits w : Nat) : Option Instr :=
  match tableWord nbits w with
  | none => none
  | some cmd =>
    match decode cmd with
    | .ok i => some i
    | .rejected _ => none

end Sys2Proof
end

