-- ==== Sys2Proof/Config.lean ====
section
/-! DEFINITION. What an implementation fixes (spec/00_scope.md R6) and the values the spec leaves to the
sink (spec/93_implementation_defined.md U3, U9, U10). The record's values stand in Machine/Constants.lean.
`HMAX` is not here: it is a model argument (R7) and State.cap carries it (DESIGN CHOICE, log 2). -/

namespace Sys2Proof

/-- The constants of R6, one field each (log 14: the source's literals are unaudited). -/
structure Constants where
  markHz : ℚ
  spaceHz : ℚ
  bitMs : ℚ
  toneGainDb : Int
  toneDepth : Nat
  channels : Nat
  preVal : Byte
  preCnt : Nat
  /-- R7: the bytes of the text "NNNN" (PRESUMED, log 13). -/
  eomBytes : List Byte
  repeats : Nat
  gapMs : Nat
  triGapMs : Nat
  triPadMs : Nat
  /-- R163: the lead byte of `DIGITAL` and the suffixes, as U1 asks. -/
  digitalLead : List Byte
  sageSuffix : List Byte
  nwsSuffix : List Byte
  digitalSuffix : List Byte
  bcastSuffix : List Byte
  bcastHz : Word
  fsDefault : Word

/-- Which of the two tones of R120 and R121. -/
inductive ToneKind where
  | mark
  | space
deriving DecidableEq, Repr

/-- Free value of the sink (U9, R125; DESIGN CHOICE, log 18): which of the admitted sample counts one bit tone takes. -/
opaque Config.bitRounding : ToneKind → Word → Nat

/-- Free value of the sink (U9; DESIGN CHOICE, log 18): the number of samples of a silence of so many ms at a rate; the source
puts no limit on it. -/
opaque Config.silenceSamples : Nat → Word → Nat

/-- Free value of the sink (U10, R131; DESIGN CHOICE, log 18): at a sample width, sample number n of a tone of a kind
at a rate. -/
opaque Config.toneSample : (depth : Nat) → ToneKind → Word → Nat → BitVec depth

/-- Free value of the sink (U3, R236; DESIGN CHOICE, log 19): what it does to a buffer tagged with `BP` = 1, of a sample
width and a sample rate. -/
opaque Config.bandpass : (depth : Nat) → (rate : Word) → List (BitVec depth) → List (BitVec depth)

/-- Free value of the host (N18, R223; DESIGN CHOICE, log 22): whether `genEAS` hands its band-pass flag down to
`genHeader`, `genEOM` and `genAttentionTone`. -/
opaque Config.handsBandpassDown : Bool

/-- Free value of the host (N19, R233; DESIGN CHOICE, log 22): whether the fixed rate of `BROADCASTER` reaches the
attention tone. -/
opaque Config.fixesAttentionRate : Bool

end Sys2Proof
end

