-- ==== Sys2Proof/Machine/Constants.lean ====
section
/-! DEFINITION. The values of the constants of spec/00_scope.md R6 and of `EOM_BYTES` of R7, in one record, so that
one edit changes each everywhere (spec/93_implementation_defined.md U1; UNVERIFIED, log 14). -/

namespace Sys2Proof.Machine

/-- R6, R7. -/
def consts : Constants where
  markHz := 20833 / 10
  spaceHz := 15625 / 10
  bitMs := 100000 / 52083
  toneGainDb := -3
  toneDepth := 16
  channels := 1
  preVal := 0xAB
  preCnt := 16
  eomBytes := [0x4E, 0x4E, 0x4E, 0x4E]
  repeats := 3
  gapMs := 1000
  triGapMs := 850
  triPadMs := 150
  digitalLead := [0x00]
  sageSuffix := [0xFF]
  nwsSuffix := [0x00, 0x00]
  digitalSuffix := [0xFF, 0xFF, 0xFF]
  bcastSuffix := [0x00, 0x00, 0x00]
  bcastHz := 44100
  fsDefault := 24000

end Sys2Proof.Machine
end

