-- ==== Sys2Proof/Machine/State.lean ====
section
/-! DEFINITION. The state of one block instance: every element of spec/10_state.md R20, and beside them the
block's input still to come and its output so far, as plain data (log 3, log 4, log 8). -/

namespace Sys2Proof.Machine

/-- R31. -/
inductive Phase where
  | idle
  | check
  | run
deriving DecidableEq, Repr

/-- One move of an agent (R5, R73; DESIGN CHOICE, log 3). -/
inductive Input where
  /-- The host reads a word (R62). -/
  | read (a : HostAddr)
  /-- The host writes a word (R63). -/
  | write (a : HostAddr) (v : Word)
  /-- The host runs the poll loop `WAIT` (R103; DESIGN CHOICE, log 15). -/
  | wait
  /-- The sink sets the level of `out_ready` (R34). -/
  | ready (level : Bool)
  /-- The sequencer takes its step, if it has one (R31). -/
  | turn
  /-- One clock edge with `rst` = 1 (R300). -/
  | reset
deriving DecidableEq, Repr

/-- The written cells of `HBUF`: (index, contents), indices strictly rising. An index that is not listed has not been
written since reset and holds no value (R45; log 1, log 7). -/
abbrev Memory := List (Nat × Word)

/-- The block and its surroundings. The first eleven fields are R20's; the last four are the model's own. -/
structure State where
  /-- R21: `FS`. -/
  fs : Word
  /-- R22: `HLEN`. -/
  hlen : Word
  /-- R24: `HBUF`. -/
  hbuf : Memory
  /-- R26: `CMD`. -/
  cmd : Word
  /-- R27: `STATUS.DONE`. -/
  done : Bool
  /-- R27: `STATUS.ERR`. -/
  err : BitVec 4
  /-- R27: `STATUS.BUSYWR`. -/
  busywr : Bool
  /-- R32: `EINFO`. -/
  einfo : Word
  /-- R33: `CAP`, the constant `HMAX` of this instance (DESIGN CHOICE, log 2). -/
  cap : Word
  /-- R31: `PHASE`. -/
  phase : Phase
  /-- R30: `TPC`. -/
  tpc : Word
  /-- The agents' moves still to come, the next one first (DESIGN CHOICE, log 3). -/
  inputs : List Input
  /-- The level the sink drives on `out_ready` (R34; DESIGN CHOICE, log 4). -/
  outReady : Bool
  /-- The token words transferred to the sink, oldest first (R39; DESIGN CHOICE, log 8). -/
  sunk : List TokenWord
  /-- The words `bus_rdata` has given the host, oldest first (R65; DESIGN CHOICE, log 8). -/
  reads : List Word
deriving DecidableEq, Repr

/-- Why the machine stops. The block itself never stops: its errors are next states (R268). -/
inductive Fault where
  /-- Raised by `ENC` and the `HDR` commands when a cell below `HLEN` has not been written since reset (R45, R306,
  U6; DEDUCED, log 1). Safe: the hardware goes on with some value. -/
  | headerCellUnwritten
  /-- Raised by a host read of a cell not written since reset (R62, U6; DEDUCED, log 1). Safe: the hardware returns some value. -/
  | hostReadUnwritten
  /-- Raised by the transfer step when `TPC` is past the token list (DEDUCED, log 9). Safe: no run reaches such a state. -/
  | tokenIndexPastEnd
  /-- Raised by the sequencer in `RUN` when `CMD` is illegal, where R100 defines no token list (DEDUCED, log 9).
  Safe: no run reaches such a state. -/
  | illegalWordInRun
deriving DecidableEq, Repr

/-- Why an instruction has no meaning. -/
inductive Refusal where
  /-- Raised by an arm of exec that has no meaning yet; safe. No arm of this model raises it. -/
  | notModelled (mnemonic : String)
deriving DecidableEq, Repr

/-- R45: the state after reset. `cap` is the suggested `HMAX` of R7 (DESIGN CHOICE, log 2); nothing has been sent or read yet, no
move is scheduled (DESIGN CHOICE, log 5), and the sink accepts (DESIGN CHOICE, log 4). -/
def State.reset : State where
  fs := consts.fsDefault
  hlen := 0
  hbuf := []
  cmd := 0
  done := false
  err := 0
  busywr := false
  einfo := 0
  cap := 1024
  phase := .idle
  tpc := 0
  inputs := []
  outReady := true
  sunk := []
  reads := []

end Sys2Proof.Machine
end

