-- ==== Sys2Proof/Machine/Flags.lean ====
section
/-! DEFINITION. The flags: the fields of `STATUS` (spec/10_state.md R27 to R29, R43), the word a read of `STATUS`
composes (spec/20_memory.md R62), and the error codes (spec/60_exceptions.md R260). -/

namespace Sys2Proof.Machine

/-- R28: `STATUS.BUSY` is a function of the phase. -/
def State.busy (s : State) : Bool := s.phase != .idle

/-- R62: `{0[31:9], BUSYWR, ERR[3:0], 0, 0, DONE, BUSY}`. -/
def State.statusWord (s : State) : Word :=
  0#23 ++ BitVec.ofBool s.busywr ++ s.err ++ 0#2 ++ BitVec.ofBool s.done ++ BitVec.ofBool s.busy

/-- The three errors of R260. -/
inductive BlockError where
  | illegalCommand
  | lengthError
  | encodingError
deriving DecidableEq, Repr

/-- R260: the codes. -/
def errorCode : BlockError → BitVec 4
  | .illegalCommand => 1
  | .lengthError => 2
  | .encodingError => 3

end Sys2Proof.Machine
end

