-- ==== Sys2Proof/Machine/Token.lean ====
section
/-! DEFINITION. The output tokens: their constructors (spec/00_scope.md R10) and their 64-bit words
(spec/30_encoding.md R97). -/

namespace Sys2Proof.Machine

/-- R10. `fin` is the spec's `END`. -/
inductive Token where
  | mark (rate : Word) (bp : Bool)
  | space (rate : Word) (bp : Bool)
  | sil (ms : BitVec 16) (rate : Word) (bp : Bool)
  | fin (rate : Word) (bp : Bool)
deriving DecidableEq, Repr

/-- R10: `TONE(b, r, bp)`, the bit modulator (R122). -/
def tone (b : Bool) (rate : Word) (bp : Bool) : Token :=
  if b then .mark rate bp else .space rate bp

/-- R97: `KIND`. -/
def Token.kind : Token → BitVec 2
  | .space _ _ => 0
  | .mark _ _ => 1
  | .sil _ _ _ => 2
  | .fin _ _ => 3

/-- R97: `DUR`, 0 but for a silence. -/
def Token.dur : Token → BitVec 16
  | .sil ms _ _ => ms
  | _ => 0

/-- R97: `RATE`. -/
def Token.rate : Token → Word
  | .mark r _ => r
  | .space r _ => r
  | .sil _ r _ => r
  | .fin r _ => r

/-- R97: `BP`. -/
def Token.bp : Token → Bool
  | .mark _ bp => bp
  | .space _ bp => bp
  | .sil _ _ bp => bp
  | .fin _ bp => bp

/-- R97: `{RATE, DUR, 0[12:0], BP, KIND}`. -/
def Token.encode (t : Token) : TokenWord :=
  t.rate ++ t.dur ++ 0#13 ++ BitVec.ofBool t.bp ++ t.kind

/-- The token a sink reads from a word of R97: none where a field that R97 fixes at 0 is not 0. -/
def Token.decode (w : TokenWord) : Option Token :=
  let rate : Word := w.extractLsb' 32 32
  let dur : BitVec 16 := w.extractLsb' 16 16
  let bp := w.getLsbD 2
  let kind : BitVec 2 := w.extractLsb' 0 2
  if w.extractLsb' 3 13 ≠ 0#13 then none
  else if kind = 2 then some (.sil dur rate bp)
  else if dur ≠ 0 then none
  else if kind = 0 then some (.space rate bp)
  else if kind = 1 then some (.mark rate bp)
  else some (.fin rate bp)

/-- The same token with another band-pass tag (R92). -/
def Token.withBp (bp : Bool) : Token → Token
  | .mark r _ => .mark r bp
  | .space r _ => .space r bp
  | .sil ms r _ => .sil ms r bp
  | .fin r _ => .fin r bp

/-- R12: whether a token is a bit tone. -/
def Token.isTone : Token → Bool
  | .mark _ _ => true
  | .space _ _ => true
  | .sil _ _ _ => false
  | .fin _ _ => false

end Sys2Proof.Machine
end

