-- ==== Sys2Proof/Machine/Operands.lean ====
section
/-! DEFINITION. What a command reads and what it frames: the header cells and bytes (spec/10_state.md R24, R25), the
serializer (spec/41_byte_serializer.md), and the mode table and segment function (spec/42_frame_header.md R160 to R165). -/

namespace Sys2Proof.Machine

/-- Cell `i` of `HBUF`: none where it has not been written since reset (R45; DEDUCED, log 1). -/
def Memory.read : Memory → Nat → Option Word
  | [], _ => none
  | (j, v) :: rest, i => if i = j then some v else Memory.read rest i

/-- The cells from `start` on, `count` of them: none where one is unwritten. -/
def Memory.readRange (m : Memory) : Nat → Nat → Option (List Word)
  | _, 0 => some []
  | start, count + 1 =>
    match Memory.read m start, Memory.readRange m (start + 1) count with
    | some v, some rest => some (v :: rest)
    | _, _ => none

/-- R7: `HMAX`. -/
def State.hmax (s : State) : Nat := s.cap.toNat

/-- R67: the cells 0 to `HLEN`-1, which the check step and `RUN` read. -/
def State.headerCells (s : State) : Option (List Word) :=
  Memory.readRange s.hbuf 0 s.hlen.toNat

/-- R25: the framed byte of a cell, its bits 7:0. -/
def cellByte (v : Word) : Byte := v.extractLsb' 0 8

/-- R143 (b): the range test. -/
def aboveByte (v : Word) : Bool := 255 < v.toNat

/-- R264: the least index of a cell that is no byte. -/
def leastBadIndex : List Word → Option Nat
  | [] => none
  | v :: rest => if aboveByte v then some 0 else (leastBadIndex rest).map (· + 1)

/-- R94: `EffMode()`. -/
def effMode (mode : BitVec 4) : Mode :=
  match mode.toNat with
  | 1 => .sage
  | 2 => .digital
  | 3 => .trilithic
  | 4 => .nws
  | 5 => .broadcaster
  | 6 => .npas
  | 7 => .wea
  | _ => .default

/-- R140: `Bits(b)`, least significant bit first. -/
def bits (b : Byte) : List Bool :=
  [b.getLsbD 0, b.getLsbD 1, b.getLsbD 2, b.getLsbD 3, b.getLsbD 4, b.getLsbD 5, b.getLsbD 6, b.getLsbD 7]

/-- R141: `EncodeBits(bytes, r, bp)`. -/
def encodeBits (bytes : List Byte) (rate : Word) (bp : Bool) : List Token :=
  match bytes with
  | [] => []
  | b :: rest => (bits b).map (fun x => tone x rate bp) ++ encodeBits rest rate bp

/-- R160: which segment is built. -/
inductive SegmentKind where
  | hdr
  | eom
deriving DecidableEq, Repr

/-- R161: one row of the mode table. -/
structure ModeRow where
  /-- The byte before the preamble of burst 0 only. -/
  lead : List Byte
  preVal : Byte
  preCnt : Nat
  suffix : List Byte
  bursts : Nat
  gapMs : Nat
  /-- The silence after the last burst of a `HDR` segment. -/
  tailHdr : Option Nat
  /-- The silence after the last burst of an `EOM` segment. -/
  tailEom : Option Nat
  /-- The fixed tone rate; none where it is the requested one. -/
  fixedRate : Option Word
deriving DecidableEq, Repr

/-- The row that sounding modes vary (R161, `DEFAULT`). -/
def plainRow : ModeRow where
  lead := []
  preVal := consts.preVal
  preCnt := consts.preCnt
  suffix := []
  bursts := consts.repeats
  gapMs := consts.gapMs
  tailHdr := none
  tailEom := none
  fixedRate := none

/-- R161: the mode table. The tail silences are the spec's decisions D18 and D19 (UNVERIFIED, log 12); a silent mode has no
burst. -/
def modeRow : Mode → ModeRow
  | .default => plainRow
  | .sage => { plainRow with suffix := consts.sageSuffix }
  | .digital =>
    { plainRow with
      lead := consts.digitalLead, suffix := consts.digitalSuffix, tailHdr := some consts.gapMs, tailEom := some consts.gapMs }
  | .trilithic => { plainRow with gapMs := consts.triGapMs, tailHdr := some consts.triPadMs }
  | .nws => { plainRow with suffix := consts.nwsSuffix }
  | .broadcaster => { plainRow with suffix := consts.bcastSuffix, fixedRate := some consts.bcastHz }
  | .npas => { plainRow with bursts := 0 }
  | .wea => { plainRow with bursts := 0 }

/-- R162: `Payload(op, hdr)`. -/
def payload (kind : SegmentKind) (hdr : List Byte) : List Byte :=
  match kind with
  | .hdr => hdr
  | .eom => consts.eomBytes

/-- R163: `BurstBytes(op, m, hdr, k)`. -/
def burstBytes (kind : SegmentKind) (m : Mode) (hdr : List Byte) (k : Nat) : List Byte :=
  (if k = 0 then (modeRow m).lead else []) ++ List.replicate (modeRow m).preCnt (modeRow m).preVal
    ++ payload kind hdr ++ (modeRow m).suffix

/-- R165: `ToneRate(m, fs)`. -/
def toneRate (m : Mode) (fs : Word) : Word := (modeRow m).fixedRate.getD fs

/-- R160, R164: how long the silence `G(k)` after burst `k` is; none where there is no silence. -/
def gapAfter (kind : SegmentKind) (m : Mode) (k : Nat) : Option Nat :=
  if k + 1 < (modeRow m).bursts then some (modeRow m).gapMs
  else
    match kind with
    | .hdr => (modeRow m).tailHdr
    | .eom => (modeRow m).tailEom

/-- R160: `G(k)`; a silence carries the requested rate in every mode (R164, D20). -/
def gap (kind : SegmentKind) (m : Mode) (k : Nat) (fs : Word) (bp : Bool) : List Token :=
  match gapAfter kind m k with
  | some ms => [.sil (BitVec.ofNat 16 ms) fs bp]
  | none => []

/-- R160: `Segment(op, m, hdr, fs, bp)`. -/
def frameSegment (kind : SegmentKind) (m : Mode) (hdr : List Byte) (fs : Word) (bp : Bool) : List Token :=
  (List.range (modeRow m).bursts).flatMap fun k =>
    encodeBits (burstBytes kind m hdr k) (toneRate m fs) bp ++ gap kind m k fs bp

end Sys2Proof.Machine
end

