-- ==== Sys2Proof/Machine/Ops.lean ====
section
/-! DEFINITION. The named operations over State: header-buffer writes, command acceptance (spec/10_state.md R36), error
entry (spec/60_exceptions.md R268), the check and transfer steps (R37, R39), host accesses (spec/20_memory.md R61 to
R64), reset (spec/70_reset_and_hazards.md R300), and the two shapes every command has. -/

namespace Sys2Proof.Machine

/-- Write one cell, keeping the indices strictly rising. -/
def Memory.write : Memory → Nat → Word → Memory
  | [], i, v => [(i, v)]
  | (j, u) :: rest, i, v =>
    if i < j then (i, v) :: (j, u) :: rest
    else if i = j then (j, v) :: rest
    else (j, u) :: Memory.write rest i v

/-- The canonical form: indices strictly rising. Every listed cell is one written since reset, so none equals what an
unlisted one reads as (no value). -/
def Memory.wf : Memory → Bool
  | [] => true
  | (i, _) :: rest =>
    match rest with
    | [] => true
    | (j, _) :: _ => decide (i < j) && Memory.wf rest

/-- Every listed cell exists: its index is below `HMAX` (R24). -/
def Memory.within (m : Memory) (hmax : Nat) : Bool := m.all fun c => decide (c.1 < hmax)

/-! ### The sequencer's effects -/

/-- R36: command acceptance. -/
def State.accept (s : State) (v : Word) : State :=
  { s with cmd := v, phase := .check, tpc := 0, done := false, err := 0, einfo := 0 }

/-- R268: error entry, the one way an error is taken. -/
def State.raise (s : State) (e : BlockError) (info : Word) : State :=
  { s with err := errorCode e, einfo := info, phase := .idle, tpc := 0 }

/-- R37: the checks passed. -/
def State.enterRun (s : State) : State := { s with phase := .run, tpc := 0 }

/-- R39, second branch: the sink takes a token that is not the last. -/
def State.advance (s : State) (t : Token) : State :=
  { s with tpc := s.tpc + 1, sunk := s.sunk ++ [t.encode] }

/-- R39, first branch, and R40: the sink takes the last token, `END`. -/
def State.complete (s : State) (t : Token) : State :=
  { s with phase := .idle, tpc := 0, done := true, sunk := s.sunk ++ [t.encode] }

/-- R38, R39: the transfer step on a token list. While the sink does not accept, the token stays offered. -/
def transfer (toks : List Token) (s : State) : Host.Outcome State Fault Refusal :=
  if s.outReady then
    match toks[s.tpc.toNat]? with
    | none => .fault .tokenIndexPastEnd
    | some t => if s.tpc.toNat + 1 = toks.length then .next (s.complete t) else .next (s.advance t)
  else .next s

/-- R37, the two checks of a header command, on a legal word. -/
def checkHeader (s : State) : Host.Outcome State Fault Refusal :=
  if s.hmax < s.hlen.toNat then .next (s.raise .lengthError s.hlen)
  else
    match s.headerCells with
    | none => .fault .headerCellUnwritten
    | some cells =>
      match leastBadIndex cells with
      | some i => .next (s.raise .encodingError (BitVec.ofNat 32 i))
      | none => .next s.enterRun

/-- A command that reads no header (R93): `word` is its command word, `body` its `Body()` at a rate, `bp` its tag.
From `IDLE` it is issued (R36, R102; DESIGN CHOICE, log 6), in `CHECK` it is checked (R37), in `RUN` its tokens leave (R39, R100). -/
def plainCommand (word : Word) (body : Word → List Token) (bp : Bool) (s : State) :
    Host.Outcome State Fault Refusal :=
  match s.phase with
  | .idle => .next (s.accept word)
  | .check => .next s.enterRun
  | .run => transfer (body s.fs ++ [.fin s.fs bp]) s

/-- A command that reads the header (R93): as `plainCommand`, with the header's checks and bytes. -/
def headerCommand (word : Word) (body : List Byte → Word → List Token) (bp : Bool) (s : State) :
    Host.Outcome State Fault Refusal :=
  match s.phase with
  | .idle => .next (s.accept word)
  | .check => checkHeader s
  | .run =>
    match s.headerCells with
    | none => .fault .headerCellUnwritten
    | some cells => transfer (body (cells.map cellByte) s.fs ++ [.fin s.fs bp]) s

/-! ### The host's accesses -/

/-- What a host word address names (R61). -/
inductive Target where
  | cmd
  | status
  | fs
  | hlen
  | einfo
  | cap
  | cell (i : Nat)
  | reserved
deriving DecidableEq, Repr

/-- R61: the address map of an instance with `hmax` cells. -/
def target (hmax : Nat) (a : HostAddr) : Target :=
  match a.toNat with
  | 0 => .cmd
  | 1 => .status
  | 2 => .fs
  | 3 => .hlen
  | 4 => .einfo
  | 5 => .cap
  | n => if 0x10000 ≤ n ∧ n - 0x10000 < hmax then .cell (n - 0x10000) else .reserved

/-- R41: a host write that is dropped because `BUSY` = 1. -/
def State.dropWrite (s : State) : State := { s with busywr := true }

/-- R27, R63: a host write to `STATUS`. -/
def State.writeStatus (s : State) (v : Word) : State :=
  if v.getLsbD 8 then { s with busywr := false } else s

/-- A host write to `FS` at `BUSY` = 0. -/
def State.setFs (s : State) (v : Word) : State := { s with fs := v }

/-- A host write to `HLEN` at `BUSY` = 0. -/
def State.setHlen (s : State) (v : Word) : State := { s with hlen := v }

/-- A host write to a cell at `BUSY` = 0. -/
def State.setCell (s : State) (i : Nat) (v : Word) : State := { s with hbuf := Memory.write s.hbuf i v }

/-- R63: `MemWrite(a, 1, v)`. -/
def hostWrite (a : HostAddr) (v : Word) (s : State) : State :=
  match target s.hmax a with
  | .cmd => if s.busy then s.dropWrite else s.accept v
  | .status => s.writeStatus v
  | .fs => if s.busy then s.dropWrite else s.setFs v
  | .hlen => if s.busy then s.dropWrite else s.setHlen v
  | .cell i => if s.busy then s.dropWrite else s.setCell i v
  | .einfo => s
  | .cap => s
  | .reserved => s

/-- R62: `MemRead(a, 1)`; none for a cell not written since reset. -/
def hostRead (a : HostAddr) (s : State) : Option Word :=
  match target s.hmax a with
  | .cmd => some s.cmd
  | .status => some s.statusWord
  | .fs => some s.fs
  | .hlen => some s.hlen
  | .einfo => some s.einfo
  | .cap => some s.cap
  | .cell i => Memory.read s.hbuf i
  | .reserved => some 0

/-- R65: the word a read returns reaches the host. -/
def State.logRead (s : State) (v : Word) : State := { s with reads := s.reads ++ [v] }

/-- One host read: it changes nothing of the block (R62). -/
def readStep (a : HostAddr) (s : State) : Host.Outcome State Fault Refusal :=
  match hostRead a s with
  | some v => .next (s.logRead v)
  | none => .fault .hostReadUnwritten

/-- R103: one poll of `WAIT`. It reads `STATUS`; while the value has `BUSY` = 1 the sequencer gets a turn and the host
polls again (DESIGN CHOICE, log 15). -/
def pollStep (s : State) : State :=
  if s.busy then { s.logRead s.statusWord with inputs := .turn :: .wait :: s.inputs }
  else s.logRead s.statusWord

/-- The sink drives `out_ready` (R34). -/
def State.setReady (s : State) (level : Bool) : State := { s with outReady := level }

/-- R300, R302: a reset strike. The block's state becomes that of R45, whatever it was; `CAP` is a constant; what the
sink and the host have received, the sink's level and the moves to come are not the block's (DESIGN CHOICE, log 11). -/
def State.strike (s : State) : State :=
  { State.reset with
    cap := s.cap, inputs := s.inputs, outReady := s.outReady, sunk := s.sunk, reads := s.reads }

/-- The sequencer's turn on an illegal word: the check step raises `IllegalCommand` (R37, R262). -/
def illegalTurn (s : State) : Host.Outcome State Fault Refusal :=
  match s.phase with
  | .idle => .next s
  | .check => .next (s.raise .illegalCommand s.cmd)
  | .run => .fault .illegalWordInRun

end Sys2Proof.Machine
end

