-- ==== Sys2Proof/Machine/Eom.lean ====
section
/-! DEFINITION. The frame builder's end-of-message commands (spec/43_frame_eom.md R190 to R199). None reads `HLEN` or
`HBUF` (R190): the header argument of the segment is the empty list (R100). -/

namespace Sys2Proof.Machine

/-- R191: `Body()` of `EOM.DEFAULT`. -/
def bodyEomDefault (bp : Bool) (fs : Word) : List Token := frameSegment .eom .default [] fs bp

/-- R191, R190: `EOM.DEFAULT`. -/
def execEomDefault (bp : Bool) (s : State) : Host.Outcome State Fault Refusal :=
  plainCommand (encode (.eomDefault bp)) (bodyEomDefault bp) bp s

/-- R192: `Body()` of `EOM.SAGE`. -/
def bodyEomSage (bp : Bool) (fs : Word) : List Token := frameSegment .eom .sage [] fs bp

/-- R192, R190: `EOM.SAGE`. -/
def execEomSage (bp : Bool) (s : State) : Host.Outcome State Fault Refusal :=
  plainCommand (encode (.eomSage bp)) (bodyEomSage bp) bp s

/-- R193: `Body()` of `EOM.DIGITAL`. -/
def bodyEomDigital (bp : Bool) (fs : Word) : List Token := frameSegment .eom .digital [] fs bp

/-- R193, R190: `EOM.DIGITAL`. -/
def execEomDigital (bp : Bool) (s : State) : Host.Outcome State Fault Refusal :=
  plainCommand (encode (.eomDigital bp)) (bodyEomDigital bp) bp s

/-- R194: `Body()` of `EOM.TRILITHIC`. -/
def bodyEomTrilithic (bp : Bool) (fs : Word) : List Token := frameSegment .eom .trilithic [] fs bp

/-- R194, R190: `EOM.TRILITHIC`. -/
def execEomTrilithic (bp : Bool) (s : State) : Host.Outcome State Fault Refusal :=
  plainCommand (encode (.eomTrilithic bp)) (bodyEomTrilithic bp) bp s

/-- R195: `Body()` of `EOM.NWS`. -/
def bodyEomNws (bp : Bool) (fs : Word) : List Token := frameSegment .eom .nws [] fs bp

/-- R195, R190: `EOM.NWS`. -/
def execEomNws (bp : Bool) (s : State) : Host.Outcome State Fault Refusal :=
  plainCommand (encode (.eomNws bp)) (bodyEomNws bp) bp s

/-- R196: `Body()` of `EOM.BROADCASTER`. -/
def bodyEomBroadcaster (bp : Bool) (fs : Word) : List Token := frameSegment .eom .broadcaster [] fs bp

/-- R196, R190: `EOM.BROADCASTER`. -/
def execEomBroadcaster (bp : Bool) (s : State) : Host.Outcome State Fault Refusal :=
  plainCommand (encode (.eomBroadcaster bp)) (bodyEomBroadcaster bp) bp s

/-- R197: `Body()` of `EOM.NPAS`. -/
def bodyEomNpas (bp : Bool) (fs : Word) : List Token := frameSegment .eom .npas [] fs bp

/-- R197, R190: `EOM.NPAS`. -/
def execEomNpas (bp : Bool) (s : State) : Host.Outcome State Fault Refusal :=
  plainCommand (encode (.eomNpas bp)) (bodyEomNpas bp) bp s

/-- R198: `Body()` of `EOM.WEA`. -/
def bodyEomWea (bp : Bool) (fs : Word) : List Token := frameSegment .eom .wea [] fs bp

/-- R198, R190: `EOM.WEA`. -/
def execEomWea (bp : Bool) (s : State) : Host.Outcome State Fault Refusal :=
  plainCommand (encode (.eomWea bp)) (bodyEomWea bp) bp s

/-- R199: `Body()` of `EOM.FALLBACK`, by the effective mode (R94). -/
def bodyEomFallback (bp : Bool) (mode : BitVec 4) (fs : Word) : List Token :=
  frameSegment .eom (effMode mode) [] fs bp

/-- R199, R190: `EOM.FALLBACK`. -/
def execEomFallback (bp : Bool) (mode : BitVec 4) (s : State) : Host.Outcome State Fault Refusal :=
  plainCommand (encode (.eomFallback bp mode)) (bodyEomFallback bp mode) bp s

end Sys2Proof.Machine
end

