-- ==== Sys2Proof/Machine/Header.lean ====
section
/-! DEFINITION. The frame builder's header commands (spec/42_frame_header.md R166 to R176). Each reads and checks the
header, then sends its segment at the requested rate and tag, and `END` (R175). -/

namespace Sys2Proof.Machine

/-- R166: `Body()` of `HDR.DEFAULT`. -/
def bodyHdrDefault (bp : Bool) (hdr : List Byte) (fs : Word) : List Token := frameSegment .hdr .default hdr fs bp

/-- R166, R175: `HDR.DEFAULT`. -/
def execHdrDefault (bp : Bool) (s : State) : Host.Outcome State Fault Refusal :=
  headerCommand (encode (.hdrDefault bp)) (bodyHdrDefault bp) bp s

/-- R167: `Body()` of `HDR.SAGE`. -/
def bodyHdrSage (bp : Bool) (hdr : List Byte) (fs : Word) : List Token := frameSegment .hdr .sage hdr fs bp

/-- R167, R175: `HDR.SAGE`. -/
def execHdrSage (bp : Bool) (s : State) : Host.Outcome State Fault Refusal :=
  headerCommand (encode (.hdrSage bp)) (bodyHdrSage bp) bp s

/-- R168: `Body()` of `HDR.DIGITAL`. -/
def bodyHdrDigital (bp : Bool) (hdr : List Byte) (fs : Word) : List Token := frameSegment .hdr .digital hdr fs bp

/-- R168, R175: `HDR.DIGITAL`. -/
def execHdrDigital (bp : Bool) (s : State) : Host.Outcome State Fault Refusal :=
  headerCommand (encode (.hdrDigital bp)) (bodyHdrDigital bp) bp s

/-- R169: `Body()` of `HDR.TRILITHIC`. -/
def bodyHdrTrilithic (bp : Bool) (hdr : List Byte) (fs : Word) : List Token := frameSegment .hdr .trilithic hdr fs bp

/-- R169, R175: `HDR.TRILITHIC`. -/
def execHdrTrilithic (bp : Bool) (s : State) : Host.Outcome State Fault Refusal :=
  headerCommand (encode (.hdrTrilithic bp)) (bodyHdrTrilithic bp) bp s

/-- R170: `Body()` of `HDR.NWS`. -/
def bodyHdrNws (bp : Bool) (hdr : List Byte) (fs : Word) : List Token := frameSegment .hdr .nws hdr fs bp

/-- R170, R175: `HDR.NWS`. -/
def execHdrNws (bp : Bool) (s : State) : Host.Outcome State Fault Refusal :=
  headerCommand (encode (.hdrNws bp)) (bodyHdrNws bp) bp s

/-- R171: `Body()` of `HDR.BROADCASTER`. -/
def bodyHdrBroadcaster (bp : Bool) (hdr : List Byte) (fs : Word) : List Token := frameSegment .hdr .broadcaster hdr fs bp

/-- R171, R175: `HDR.BROADCASTER`. -/
def execHdrBroadcaster (bp : Bool) (s : State) : Host.Outcome State Fault Refusal :=
  headerCommand (encode (.hdrBroadcaster bp)) (bodyHdrBroadcaster bp) bp s

/-- R172: `Body()` of `HDR.NPAS`. -/
def bodyHdrNpas (bp : Bool) (hdr : List Byte) (fs : Word) : List Token := frameSegment .hdr .npas hdr fs bp

/-- R172, R175: `HDR.NPAS`. -/
def execHdrNpas (bp : Bool) (s : State) : Host.Outcome State Fault Refusal :=
  headerCommand (encode (.hdrNpas bp)) (bodyHdrNpas bp) bp s

/-- R173: `Body()` of `HDR.WEA`. -/
def bodyHdrWea (bp : Bool) (hdr : List Byte) (fs : Word) : List Token := frameSegment .hdr .wea hdr fs bp

/-- R173, R175: `HDR.WEA`. -/
def execHdrWea (bp : Bool) (s : State) : Host.Outcome State Fault Refusal :=
  headerCommand (encode (.hdrWea bp)) (bodyHdrWea bp) bp s

/-- R174: `Body()` of `HDR.FALLBACK`, by the effective mode (R94). -/
def bodyHdrFallback (bp : Bool) (mode : BitVec 4) (hdr : List Byte) (fs : Word) : List Token :=
  frameSegment .hdr (effMode mode) hdr fs bp

/-- R174, R175: `HDR.FALLBACK`. -/
def execHdrFallback (bp : Bool) (mode : BitVec 4) (s : State) : Host.Outcome State Fault Refusal :=
  headerCommand (encode (.hdrFallback bp mode)) (bodyHdrFallback bp mode) bp s

end Sys2Proof.Machine
end

