-- ==== Sys2Proof/Machine/Modulator.lean ====
section
/-! DEFINITION. The bit modulator's commands, `MARK` and `SPACE` (spec/40_bit_modulator.md R123, R124). -/

namespace Sys2Proof.Machine

/-- R123: `Body()` of `MARK`. -/
def bodyMark (fs : Word) : List Token := [tone true fs false]

/-- R123: `MARK`. -/
def execMark (s : State) : Host.Outcome State Fault Refusal :=
  plainCommand (encode .mark) bodyMark false s

/-- R124: `Body()` of `SPACE`. -/
def bodySpace (fs : Word) : List Token := [tone false fs false]

/-- R124: `SPACE`. -/
def execSpace (s : State) : Host.Outcome State Fault Refusal :=
  plainCommand (encode .space) bodySpace false s

end Sys2Proof.Machine
end

