-- ==== Sys2Proof/Machine/Serializer.lean ====
section
/-! DEFINITION. The byte serializer's command, `ENC` (spec/41_byte_serializer.md R142). -/

namespace Sys2Proof.Machine

/-- R142: `Body()` of `ENC`, the header's bytes alone. -/
def bodyEnc (hdr : List Byte) (fs : Word) : List Token := encodeBits hdr fs false

/-- R142: `ENC`. -/
def execEnc (s : State) : Host.Outcome State Fault Refusal :=
  headerCommand (encode .enc) bodyEnc false s

end Sys2Proof.Machine
end

