-- ==== Sys2Proof/Machine/Dispatch.lean ====
section
/-! DEFINITION. One arm per instruction. -/

namespace Sys2Proof.Machine

def exec (i : Instr) (s : State) : Host.Outcome State Fault Refusal :=
  match i with
  | .mark => Sys2Proof.Machine.execMark s
  | .space => Sys2Proof.Machine.execSpace s
  | .enc => Sys2Proof.Machine.execEnc s
  | .hdrDefault bp => Sys2Proof.Machine.execHdrDefault bp s
  | .hdrSage bp => Sys2Proof.Machine.execHdrSage bp s
  | .hdrDigital bp => Sys2Proof.Machine.execHdrDigital bp s
  | .hdrTrilithic bp => Sys2Proof.Machine.execHdrTrilithic bp s
  | .hdrNws bp => Sys2Proof.Machine.execHdrNws bp s
  | .hdrBroadcaster bp => Sys2Proof.Machine.execHdrBroadcaster bp s
  | .hdrNpas bp => Sys2Proof.Machine.execHdrNpas bp s
  | .hdrWea bp => Sys2Proof.Machine.execHdrWea bp s
  | .hdrFallback bp mode => Sys2Proof.Machine.execHdrFallback bp mode s
  | .eomDefault bp => Sys2Proof.Machine.execEomDefault bp s
  | .eomSage bp => Sys2Proof.Machine.execEomSage bp s
  | .eomDigital bp => Sys2Proof.Machine.execEomDigital bp s
  | .eomTrilithic bp => Sys2Proof.Machine.execEomTrilithic bp s
  | .eomNws bp => Sys2Proof.Machine.execEomNws bp s
  | .eomBroadcaster bp => Sys2Proof.Machine.execEomBroadcaster bp s
  | .eomNpas bp => Sys2Proof.Machine.execEomNpas bp s
  | .eomWea bp => Sys2Proof.Machine.execEomWea bp s
  | .eomFallback bp mode => Sys2Proof.Machine.execEomFallback bp mode s

end Sys2Proof.Machine
end

