-- ==== Sys2Proof/Machine/Sequencer.lean ====
section
/-! DEFINITION. The agents' steps: the sequencer's turn, which runs the instruction whose word stands in `CMD`
(spec/10_state.md R31, R35 to R40), one move of any agent (spec/00_scope.md R5), and the output port (R34). -/

namespace Sys2Proof.Machine

/-- The sequencer's step. In `IDLE` it has none (R31); else it runs the command in `CMD`, or finds it illegal. -/
def sequencerTurn (s : State) : Host.Outcome State Fault Refusal :=
  match s.phase with
  | .idle => .next s
  | _ =>
    match decode s.cmd with
    | .ok i => exec i s
    | .rejected _ => illegalTurn s

/-- One move of an agent, on the state from which the move has been taken (R73). -/
def agentStep (x : Input) (s : State) : Host.Outcome State Fault Refusal :=
  match x with
  | .read a => readStep a s
  | .write a v => .next (hostWrite a v s)
  | .wait => .next (pollStep s)
  | .ready level => .next (s.setReady level)
  | .turn => sequencerTurn s
  | .reset => .next s.strike

/-- Take the next move off the schedule. Where none is left the sequencer has the turn (DESIGN CHOICE, log 3). -/
def takeMove (s : State) : Input × State :=
  match s.inputs with
  | [] => (.turn, s)
  | x :: rest => (x, { s with inputs := rest })

/-- R100: `Tokens()` of an instruction on a state: none where the header it reads is not all written. -/
def tokensOf (i : Instr) (s : State) : Option (List Token) :=
  let plain (body : Word → List Token) (bp : Bool) : Option (List Token) :=
    some (body s.fs ++ [.fin s.fs bp])
  let header (body : List Byte → Word → List Token) (bp : Bool) : Option (List Token) :=
    s.headerCells.map fun cells => body (cells.map cellByte) s.fs ++ [.fin s.fs bp]
  match i with
  | .mark => plain bodyMark false
  | .space => plain bodySpace false
  | .enc => header bodyEnc false
  | .hdrDefault bp => header (bodyHdrDefault bp) bp
  | .hdrSage bp => header (bodyHdrSage bp) bp
  | .hdrDigital bp => header (bodyHdrDigital bp) bp
  | .hdrTrilithic bp => header (bodyHdrTrilithic bp) bp
  | .hdrNws bp => header (bodyHdrNws bp) bp
  | .hdrBroadcaster bp => header (bodyHdrBroadcaster bp) bp
  | .hdrNpas bp => header (bodyHdrNpas bp) bp
  | .hdrWea bp => header (bodyHdrWea bp) bp
  | .hdrFallback bp mode => header (bodyHdrFallback bp mode) bp
  | .eomDefault bp => plain (bodyEomDefault bp) bp
  | .eomSage bp => plain (bodyEomSage bp) bp
  | .eomDigital bp => plain (bodyEomDigital bp) bp
  | .eomTrilithic bp => plain (bodyEomTrilithic bp) bp
  | .eomNws bp => plain (bodyEomNws bp) bp
  | .eomBroadcaster bp => plain (bodyEomBroadcaster bp) bp
  | .eomNpas bp => plain (bodyEomNpas bp) bp
  | .eomWea bp => plain (bodyEomWea bp) bp
  | .eomFallback bp mode => plain (bodyEomFallback bp mode) bp

/-- R34: `out_valid`. -/
def State.outValid (s : State) : Bool := s.phase == .run

/-- R35: `Tokens()` of the command in `CMD`. -/
def State.tokens (s : State) : Option (List Token) :=
  match decode s.cmd with
  | .ok i => tokensOf i s
  | .rejected _ => none

/-- R34: `out_data` while `out_valid` = 1; its value while `out_valid` = 0 is not represented (U7; DEDUCED, log 16). -/
def State.outData (s : State) : Option TokenWord :=
  if s.outValid then
    match s.tokens with
    | some toks => toks[s.tpc.toNat]?.map Token.encode
    | none => none
  else none

/-- `s` with the command word of the table bits just accepted (R36) and the next move the sequencer's turn, which it
already is where no move is scheduled, so that the next step checks and runs exactly it (DESIGN CHOICE, log 5). -/
def placeCommand (s : State) (nbits w : Nat) : State :=
  match tableWord nbits w with
  | none => s
  | some cmd =>
    match s.inputs with
    | [] => s.accept cmd
    | x :: rest => { s.accept cmd with inputs := .turn :: x :: rest }

end Sys2Proof.Machine
end

