-- ==== Sys2Proof/Machine/Step.lean ====
section
/-! DEFINITION. One step: the next move of the schedule, made by its agent (spec/20_memory.md R73). -/

namespace Sys2Proof.Machine

/-- One step of the machine. -/
def step (s : State) : Host.Outcome State Fault Refusal :=
  agentStep (takeMove s).1 (takeMove s).2

/-- The state whose very next step runs the instruction of the table bits (DESIGN CHOICE, log 5). -/
def State.withFetchWord (s : State) (nbits w : Nat) : State := placeCommand s nbits w

end Sys2Proof.Machine
end

