-- ==== Sys2Proof/Machine/Audio.lean ====
section
/-! DEFINITION. What a token means as audio: the contract between block and sink of spec/40_bit_modulator.md R120 to
R127. No step of the machine depends on it. -/

namespace Sys2Proof.Machine

/-- The parameters of one bit tone (R120, R121). -/
structure ToneSpec where
  hz : ℚ
  ms : ℚ
  gainDb : Int
  depth : Nat
  channels : Nat
  rate : Word
deriving DecidableEq, Repr

/-- The parameters of one silent buffer (R127). -/
structure SilenceSpec where
  ms : Nat
  depth : Nat
  channels : Nat
  rate : Word
deriving DecidableEq, Repr

/-- One piece of an audio buffer (R127). -/
inductive AudioPart where
  | tone (t : ToneSpec)
  | silence (t : SilenceSpec)
deriving DecidableEq, Repr

/-- R120, R121: the two frequencies. -/
def toneHz : ToneKind → ℚ
  | .mark => consts.markHz
  | .space => consts.spaceHz

/-- R120, R121, R122: the tone of a kind at a rate; the two differ in frequency alone. -/
def toneSpec (k : ToneKind) (rate : Word) : ToneSpec where
  hz := toneHz k
  ms := consts.bitMs
  gainDb := consts.toneGainDb
  depth := consts.toneDepth
  channels := consts.channels
  rate := rate

/-- R127: a silence has the sample width and the channels of every buffer. -/
def silenceSpec (ms : Nat) (rate : Word) : SilenceSpec where
  ms := ms
  depth := consts.toneDepth
  channels := consts.channels
  rate := rate

/-- R127: the sample width of a piece. -/
def AudioPart.depth : AudioPart → Nat
  | .tone t => t.depth
  | .silence t => t.depth

/-- R127: the number of channels of a piece. -/
def AudioPart.channels : AudioPart → Nat
  | .tone t => t.channels
  | .silence t => t.channels

/-- R127: what one token adds to the buffer. -/
def tokenAudio : Token → List AudioPart
  | .mark r _ => [.tone (toneSpec .mark r)]
  | .space r _ => [.tone (toneSpec .space r)]
  | .sil ms r _ => [.silence (silenceSpec ms.toNat r)]
  | .fin _ _ => []

/-- R127: `Audio(l)`, before the rate conversion and the filter that the sink owes (DESIGN CHOICE, log 19). -/
def audio (l : List Token) : List AudioPart := l.flatMap tokenAudio

/-- R126: the nominal duration of one token in ms. -/
def tokenMs : Token → ℚ
  | .mark _ _ => consts.bitMs
  | .space _ _ => consts.bitMs
  | .sil ms _ _ => (ms.toNat : ℚ)
  | .fin _ _ => 0

/-- R126: `Dur(l)`. -/
def durMs : List Token → ℚ
  | [] => 0
  | t :: rest => tokenMs t + durMs rest

/-- R125: the exact number of samples of `BIT_MS` at a rate; with the constants of R6, `r * 100 / 52083`. -/
def exactSamples (r : Word) : ℚ := (r.toNat : ℚ) * consts.bitMs / 1000

/-- R125: the least admitted sample count of a bit tone, the least natural number not below the exact one less 1. -/
def samplesLow (r : Word) : Nat := ⌈exactSamples r⌉₊ - 1

/-- R125: the greatest admitted sample count, the greatest not above the exact one and 1. -/
def samplesHigh (r : Word) : Nat := ⌊exactSamples r⌋₊ + 1

/-- R125: `SamplesPerBit(kind, r)`, one of the admitted counts and no more is known of it (DESIGN CHOICE, log 18). -/
def samplesPerBit (k : ToneKind) (r : Word) : Nat :=
  samplesLow r + Config.bitRounding k r % (samplesHigh r - samplesLow r + 1)

/-- The number of samples a token becomes at its own rate (R125; U9 for a silence). -/
def tokenSamples : Token → Nat
  | .mark r _ => samplesPerBit .mark r
  | .space r _ => samplesPerBit .space r
  | .sil ms r _ => Config.silenceSamples ms.toNat r
  | .fin _ _ => 0

/-- R131: the samples of a bit tone, a function of its kind and rate of which only the count is known. -/
def toneSamples (k : ToneKind) (r : Word) : List (BitVec consts.toneDepth) :=
  (List.range (samplesPerBit k r)).map (Config.toneSample consts.toneDepth k r)

/-- R236, U3: what the sink makes of a buffer of some rate under a band-pass tag. -/
def sinkFilter (bp : Bool) (rate : Word) (samples : List (BitVec consts.toneDepth)) : List (BitVec consts.toneDepth) :=
  if bp then Config.bandpass consts.toneDepth rate samples else samples

end Sys2Proof.Machine
end

