-- ==== Sys2Proof/Machine/Alert.lean ====
section
/-! DEFINITION. The surrounding software of spec/44_host_alert_assembler.md (R221 to R233), which spec/00_scope.md R4
places outside the block: the alert as a symbolic sound and its nominal duration. No step of the machine depends on it
(DESIGN CHOICE, log 22). -/

namespace Sys2Proof.Machine

/-- A sound, as the host composes it (R237). -/
inductive Sound where
  | none
  | silence (t : SilenceSpec)
  | sine (t : ToneSpec)
  /-- The buffer a command's tokens denote (R127). -/
  | segment (tokens : List Token)
  /-- The caller's voice message, after coercion to a rate (R228). -/
  | payload (ms : ℚ) (rate : Word)
  | cat (first second : Sound)
  | overlay (a b : Sound)
  /-- The first so many ms of a sound. -/
  | take (ms : ℚ) (a : Sound)
  | filtered (a : Sound)
deriving DecidableEq, Repr

/-- Nominal duration in ms; a filter keeps it, an overlay lasts as long as the longer part (DESIGN CHOICE, log 22). -/
def Sound.ms : Sound → ℚ
  | .none => 0
  | .silence t => t.ms
  | .sine t => t.ms
  | .segment l => durMs l
  | .payload d _ => d
  | .cat a b => a.ms + b.ms
  | .overlay a b => max a.ms b.ms
  | .take d a => min d a.ms
  | .filtered a => a.ms

/-- Repetition (R237). -/
def Sound.times (n : Nat) (a : Sound) : Sound :=
  match n with
  | 0 => .none
  | n + 1 => .cat a (Sound.times n a)

/-- R238, R228: a mono sine wave of a frequency, duration and gain at a rate. -/
def sine (hz ms : ℚ) (gainDb : Int) (rate : Word) : Sound :=
  .sine { hz := hz, ms := ms, gainDb := gainDb, depth := consts.toneDepth, channels := consts.channels, rate := rate }

/-- R237: a silent buffer of a duration at a rate. -/
def pause (ms : Nat) (rate : Word) : Sound := .silence (silenceSpec ms rate)

/-- R229: the EBS two-tone. -/
def twoTone (rate : Word) : Sound := .overlay (sine 853 8000 (-10) rate) (sine 960 8000 (-10) rate)

/-- R231: the two-tone's first part and a pause. -/
def twoToneCut (ms : ℚ) (rate : Word) : Sound := .cat (.take ms (twoTone rate)) (pause 500 rate)

/-- R232: one 500 ms chord of two tones. The -10 dB that R232 gives a chord pair is taken as the gain of each of its two
tones, as R229 says it of the two-tone (DESIGN CHOICE, log 24). -/
def chord (hz₁ hz₂ : ℚ) (rate : Word) : Sound := .overlay (sine hz₁ 500 (-10) rate) (sine hz₂ 500 (-10) rate)

/-- R229 to R233: the attention tone of a mode at a rate, before the filter. -/
def attentionTone (m : Mode) (rate : Word) : Sound :=
  match m with
  | .nws => sine 1050 9000 (-4) rate
  | .wea => Sound.times 2 (.cat (twoToneCut 2000 rate) (Sound.times 2 (twoToneCut 1000 rate)))
  | .npas =>
    .cat
      (.overlay (sine (313596 / 100) 8000 (-10) rate)
        (Sound.times 8
          (.cat (chord (10465 / 10) (93233 / 100) rate) (chord (65926 / 100) 440 rate))))
      (pause 1000 rate)
  | .default => twoTone rate
  | .sage => twoTone rate
  | .digital => twoTone rate
  | .trilithic => twoTone rate
  | .broadcaster => twoTone rate

/-- The rate of the attention tone's waves: the requested one, but that of R165 in `BROADCASTER` where the host fixes it
(N19: not stated, so free; DESIGN CHOICE, log 22). -/
def attentionRate (m : Mode) (rate : Word) : Word := if Config.fixesAttentionRate then toneRate m rate else rate

/-- R229, R236: `genAttentionTone(mode, sampleRate, bandpass)`. -/
def genAttentionTone (m : Mode) (rate : Word) (bandpass : Bool) : Sound :=
  let unfiltered := attentionTone m (attentionRate m rate)
  if bandpass then .filtered unfiltered else unfiltered

/-- R224: the modes that force the attention tone. -/
def forcesAttention : Mode → Bool
  | .npas => true
  | .wea => true
  | _ => false

/-- The arguments of `genEAS` (R222). -/
structure AlertArgs where
  header : List Byte
  attention : Bool
  endOfMessage : Bool
  /-- The payload audio's duration in ms; 0 for none. -/
  payloadMs : ℚ
  mode : Mode
  rate : Word
  bandpass : Bool
deriving DecidableEq, Repr

/-- R222: the defaults, for a header. -/
def AlertArgs.defaults (header : List Byte) : AlertArgs where
  header := header
  attention := true
  endOfMessage := true
  payloadMs := 0
  mode := .default
  rate := consts.fsDefault
  bandpass := false

/-- The tag `genEAS` hands to the block (N18: not stated, so free; DESIGN CHOICE, log 22). -/
def AlertArgs.tag (a : AlertArgs) : Bool := a.bandpass && Config.handsBandpassDown

/-- R223, step 3: the attention tone and its 1 s of silence. -/
def AlertArgs.attentionPart (a : AlertArgs) : Sound :=
  if a.attention || forcesAttention a.mode then
    .cat (genAttentionTone a.mode a.rate a.tag) (pause 1000 a.rate)
  else .none

/-- R223, step 4. -/
def AlertArgs.eomPart (a : AlertArgs) : Sound :=
  if a.endOfMessage then .segment (frameSegment .eom a.mode [] a.rate a.tag) else .none

/-- R221, R223: the whole alert. -/
def genEas (a : AlertArgs) : Sound :=
  let whole : Sound :=
    .cat (pause 500 a.rate)
      (.cat (.segment (frameSegment .hdr a.mode a.header a.rate a.tag))
        (.cat a.attentionPart (.cat (.payload a.payloadMs a.rate) (.cat a.eomPart (pause 500 a.rate)))))
  if a.bandpass then .filtered whole else whole

end Sys2Proof.Machine
end

