-- ==== Sys2Proof/Machine/HostScript.lean ====
section
/-! DEFINITION. The host-script notation of spec/30_encoding.md R102 to R104, as lists of the host's moves. A script is
run by putting it into State.inputs; the machine does not depend on this file. -/

namespace Sys2Proof.Machine

/-- R61: the word address of cell `i`, for `i` up to 0xFFFF. -/
def cellAddr (i : Nat) : HostAddr := BitVec.ofNat 17 (0x10000 + i)

/-- R102: a line `<MNEMONIC> [bp]`. -/
def issue (i : Instr) : Input := .write 0 (encode i)

/-- The cell writes of `LOADHDR`, from cell `start` on. -/
def loadCells : Nat → List Word → List Input
  | _, [] => []
  | start, c :: rest => .write (cellAddr start) c :: loadCells (start + 1) rest

/-- R103: `LOADHDR`, on the code points of the header. -/
def loadHdr (codePoints : List Word) : List Input :=
  loadCells 0 codePoints ++ [.write 3 (BitVec.ofNat 32 codePoints.length)]

/-- R103: `CLRW`. -/
def clearDropped : Input := .write 1 0x00000100

/-- Which moves are lines of a host script (R102, R103): the host's accesses and its poll loop. -/
def Input.isScriptLine : Input → Bool
  | .read _ => true
  | .write _ _ => true
  | .wait => true
  | .ready _ => false
  | .turn => false
  | .reset => false

/-- What a host script expects of its end (R316; DESIGN CHOICE, log 23). -/
structure Expectation where
  /-- The errors the script expects its last command may end with; none is listed where it expects success. -/
  errors : List BlockError
  /-- Whether the script expects a write of its own to be dropped. -/
  drop : Bool
deriving DecidableEq, Repr

/-- The expectation of a script that expects neither an error nor a dropped write. -/
def Expectation.nothing : Expectation where
  errors := []
  drop := false

/-- R104: `mark(sampleRate)`. -/
def callMark (rate : Word) : List Input := [.write 2 rate, issue .mark, .wait]

/-- R104: `space(sampleRate)`. -/
def callSpace (rate : Word) : List Input := [.write 2 rate, issue .space, .wait]

/-- R104: `encodeBits(bytes, sampleRate)`. -/
def callEncodeBits (codePoints : List Word) (rate : Word) : List Input :=
  .write 2 rate :: loadHdr codePoints ++ [issue .enc, .wait]

/-- R104: `genHeader(headerData, mode, sampleRate, bandpass)`; a mode is its number of R94. -/
def callGenHeader (codePoints : List Word) (mode : BitVec 4) (rate : Word) (bp : Bool) : List Input :=
  .write 2 rate :: loadHdr codePoints ++ [issue (hdrInstr mode bp), .wait]

/-- R104: `genEOM(mode, sampleRate, bandpass)`. -/
def callGenEom (mode : BitVec 4) (rate : Word) (bp : Bool) : List Input :=
  [.write 2 rate, issue (eomInstr mode bp), .wait]

end Sys2Proof.Machine
end

