-- ==== Sys2Proof/Safety.lean ====
section
/-! DEFINITION. The terms in which statements speak of safe runs: the invariant of reachable states, what a command
needs of the header, what an instruction performs, and the end of a run (spec/70_reset_and_hazards.md R316). -/

namespace Sys2Proof.Machine

/-- R35: `ReadsHeader()`. -/
def readsHeader : Instr → Bool
  | .mark => false
  | .space => false
  | .enc => true
  | .hdrDefault _ => true
  | .hdrSage _ => true
  | .hdrDigital _ => true
  | .hdrTrilithic _ => true
  | .hdrNws _ => true
  | .hdrBroadcaster _ => true
  | .hdrNpas _ => true
  | .hdrWea _ => true
  | .hdrFallback _ _ => true
  | .eomDefault _ => false
  | .eomSage _ => false
  | .eomDigital _ => false
  | .eomTrilithic _ => false
  | .eomNws _ => false
  | .eomBroadcaster _ => false
  | .eomNpas _ => false
  | .eomWea _ => false
  | .eomFallback _ _ => false

/-- The header of R304 is loaded: `HLEN` is at most `HMAX`, and the cells below it are written and hold the bytes
`hdr`, each as a code point of at most 255. -/
def HeaderIs (s : State) (hdr : List Byte) : Prop :=
  s.hlen.toNat ≤ s.hmax ∧ s.headerCells = some (hdr.map (BitVec.setWidth 32))

/-- A command in `RUN` is one whose checks passed and whose token list has a token at `TPC` (R30, R37, R38). -/
def RunReady (s : State) : Prop :=
  ∃ i toks, decode s.cmd = .ok i ∧ (readsHeader i = true → ∃ hdr, HeaderIs s hdr)
    ∧ tokensOf i s = some toks ∧ s.tpc.toNat < toks.length

/-- What holds of every state a run reaches, for an instance whose `HMAX` is within R7's bounds. -/
structure StateInv (s : State) : Prop where
  /-- The written cells stand in canonical form. -/
  memory : Memory.wf s.hbuf = true
  /-- Only cells below `HMAX` exist (R24). -/
  cells : Memory.within s.hbuf s.hmax = true
  /-- R7: 1 <= `HMAX` <= 65535. -/
  capacity : 1 ≤ s.hmax ∧ s.hmax ≤ 65535
  /-- R260: codes 4 to 15 are never produced. -/
  codes : s.err.toNat ≤ 3
  /-- R29: `DONE` excludes the other two. -/
  doneAlone : s.done = true → s.phase = .idle ∧ s.err = 0
  /-- R29: `ERR` excludes `BUSY`. -/
  errIdle : s.err ≠ 0 → s.phase = .idle
  /-- R260: code 0 records 0. -/
  infoZero : s.err = 0 → s.einfo = 0
  /-- R30: `TPC` is 0 outside `RUN`. -/
  tpcZero : s.phase ≠ .run → s.tpc = 0
  /-- R37: `RUN` is entered only by a checked command. -/
  running : s.phase = .run → RunReady s

/-- What an instruction with this `Body()` and tag does in `CHECK` and `RUN`, as equations on exec: the check step
passes (R37); with the sink accepting, each body token is transferred (R39) and `END` completes (R40). -/
def Performs (i : Instr) (s : State) (body : List Token) (bp : Bool) : Prop :=
  (s.phase = .check → exec i s = .next { s with phase := .run, tpc := 0 })
  ∧ (s.phase = .run → s.outReady = true → ∀ t, body[s.tpc.toNat]? = some t →
      exec i s = .next { s with tpc := s.tpc + 1, sunk := s.sunk ++ [t.encode] })
  ∧ (s.phase = .run → s.outReady = true → s.tpc.toNat = body.length →
      exec i s = .next
        { s with phase := .idle, tpc := 0, done := true, sunk := s.sunk ++ [(Token.fin s.fs bp).encode] })

/-- What the spec's rule of an instruction says in one place: its command word, what it performs, how many tokens it
sends with `END`, and their nominal duration (R126). -/
def Sends (i : Instr) (word : Nat) (s : State) (body : List Token) (bp : Bool) (count : Nat) (ms : ℚ) : Prop :=
  encode i = BitVec.ofNat 32 (bp.toNat * 256 + word)
  ∧ Performs i s body bp
  ∧ (body ++ [Token.fin s.fs bp]).length = count
  ∧ durMs (body ++ [Token.fin s.fs bp]) = ms

/-- R12: one burst, and the three-burst segment of three byte lists with a silence after each of the first two and
whatever stands after the third. -/
def threeBursts (burst₀ burst₁ burst₂ : List Byte) (gap tail : List Token) (rate : Word) (bp : Bool) : List Token :=
  encodeBits burst₀ rate bp ++ gap ++ encodeBits burst₁ rate bp ++ gap ++ encodeBits burst₂ rate bp ++ tail

/-- R163: the preamble `P`, 0xAB × 16. -/
def preamble : List Byte := List.replicate 16 0xAB

/-- R163: `N4`, the burst payload of an end-of-message segment. -/
def n4 : List Byte := [0x4E, 0x4E, 0x4E, 0x4E]

/-- The block's own state, R20's tuple, is the same in two states; their surroundings may differ. -/
def SameBlock (s t : State) : Prop :=
  t.fs = s.fs ∧ t.hlen = s.hlen ∧ t.hbuf = s.hbuf ∧ t.cmd = s.cmd ∧ t.done = s.done ∧ t.err = s.err
    ∧ t.busywr = s.busywr ∧ t.einfo = s.einfo ∧ t.cap = s.cap ∧ t.phase = s.phase ∧ t.tpc = s.tpc

/-- R27, R29: how many of `BUSY`, `DONE` and `ERR != 0` hold. -/
def outcomeCount (s : State) : Nat :=
  (if s.busy then 1 else 0) + (if s.done then 1 else 0) + (if s.err = 0 then 0 else 1)

/-- So many steps, ending at the first fault or refusal. -/
def runFor : Nat → State → Host.Outcome State Fault Refusal
  | 0, s => .next s
  | n + 1, s =>
    match step s with
    | .next t => runFor n t
    | .fault f => .fault f
    | .refused r => .refused r

/-- The next move ends the command's stream or starts another: a reset strike (R303), or a write to `CMD` that is
accepted because the block is idle (R36). -/
def disturbs (s : State) : Bool :=
  match s.inputs.head? with
  | some .reset => true
  | some (.write a _) => a == 0 && !s.busy
  | some (.read _) => false
  | some .wait => false
  | some (.ready _) => false
  | some .turn => false
  | none => false

/-- None of the next so many steps disturbs. -/
def undisturbedFor : Nat → State → Bool
  | 0, _ => true
  | n + 1, s =>
    !disturbs s &&
      match step s with
      | .next t => undisturbedFor n t
      | .fault _ => true
      | .refused _ => true

/-- R316: the host script has ended: no line of it is left, and the block is idle. Turns and moves of the sink may still
stand on the schedule; `rst` is not asserted between moves (log 11). -/
def Ended (s : State) : Prop := (∀ x ∈ s.inputs, x.isScriptLine = false) ∧ s.phase = .idle

/-- R316: the final state is good for what the script expects. -/
def EndedWell (expects : Expectation) (s : State) : Prop :=
  Ended s ∧ (s.err = 0 ∨ ∃ e ∈ expects.errors, s.err = errorCode e) ∧ (s.busywr = false ∨ expects.drop = true)

end Sys2Proof.Machine
end

