-- ==== Sys2Proof/Certificates/Slice0/Obligations.lean ====
section
/-! DEFINITION. The statements for the provers. Each docstring names the rules of spec/ it formalises, or says that it
states a choice of the model and names the log entry. -/

open Sys2Proof Sys2Proof.Machine

/-! ### Encodings -/

/-- R91, R101: the decoder gives back every well-formed instruction from its word. -/
def Obligations.DecodeOfEncode : Prop :=
  ∀ i : Instr, i.wellFormed = true → decode (encode i) = .ok i

/-- R91, R101: a word that decodes is the word of the instruction it decodes to, which is well formed. -/
def Obligations.EncodeOfDecode : Prop :=
  ∀ (w : Word) (i : Instr), decode w = .ok i → encode i = w ∧ i.wellFormed = true

/-- R95: the legal words, by the three conditions and by the list the rule draws from them. -/
def Obligations.LegalWordsAreTheDecodedOnes : Prop :=
  (∀ w : Word,
    ((∃ i, decode w = .ok i) ↔
      (w.extractLsb' 9 23 = 0#23 ∧ w.extractLsb' 0 4 ∈ [1#4, 2#4, 3#4, 4#4, 5#4]
        ∧ (w.extractLsb' 0 4 ∈ [4#4, 5#4] ∨ (w.extractLsb' 4 4 = 0#4 ∧ w.getLsbD 8 = false))))
    ∧ ((∃ i, decode w = .ok i) ↔
      (w = 0x001 ∨ w = 0x002 ∨ w = 0x003
        ∨ ∃ op mode bp : Nat, (op = 4 ∨ op = 5) ∧ mode ≤ 15 ∧ bp ≤ 1
            ∧ w = BitVec.ofNat 32 (bp * 256 + mode * 16 + op))))
  ∧ ((List.range 512).filter fun n => legalWord (BitVec.ofNat 32 n)).length = 67

/-- R101: a word selects the row its instruction stands in, rows do not overlap, and a word that selects no row is
illegal. -/
def Obligations.RowsSelectByMaskAndMatch : Prop :=
  ∀ w : Word,
    (∀ i, decode w = .ok i → w &&& rowMask i = rowMatch i)
    ∧ (∀ i j, w &&& rowMask i = rowMatch i → w &&& rowMask j = rowMatch j →
        rowMask i = rowMask j ∧ rowMatch i = rowMatch j)
    ∧ ((∀ i, w &&& rowMask i ≠ rowMatch i) → ∃ why, decode w = .rejected why)
    ∧ (∀ i, w &&& rowMask i = rowMatch i → ∃ j, decode w = .ok j ∧ rowMask j = rowMask i ∧ rowMatch j = rowMatch i)

/-- R101, R174: four words written out from the table decode to the instructions they stand for, and the all-zero
word to none (R96). -/
def Obligations.TableWordsDecode : Prop :=
  decode 0b000000001 = .ok .mark
  ∧ decode 0b100010100 = .ok (.hdrSage true)
  ∧ decode 0b011000100 = .ok (.hdrFallback false 12)
  ∧ decode 0b001010101 = .ok (.eomBroadcaster false)
  ∧ decode 0 = .rejected .opZero

/-- R97: where each field of a token word stands, for each kind of token; and the word says which token it is. -/
def Obligations.TokenWordFields : Prop :=
  ∀ (r : Word) (d : BitVec 16) (bp : Bool),
    (∀ t ∈ [Token.space r bp, .mark r bp, .sil d r bp, .fin r bp],
      t.encode.getLsbD 2 = bp ∧ t.encode.extractLsb' 3 13 = 0#13 ∧ t.encode.extractLsb' 32 32 = r
        ∧ Token.decode t.encode = some t)
    ∧ ((Token.space r bp).encode.extractLsb' 0 2 = 0#2 ∧ (Token.space r bp).encode.extractLsb' 16 16 = 0#16)
    ∧ ((Token.mark r bp).encode.extractLsb' 0 2 = 1#2 ∧ (Token.mark r bp).encode.extractLsb' 16 16 = 0#16)
    ∧ ((Token.sil d r bp).encode.extractLsb' 0 2 = 2#2 ∧ (Token.sil d r bp).encode.extractLsb' 16 16 = d)
    ∧ ((Token.fin r bp).encode.extractLsb' 0 2 = 3#2 ∧ (Token.fin r bp).encode.extractLsb' 16 16 = 0#16)
    ∧ (Token.mark 24000 false).encode = 0x00005DC000000001
    ∧ (Token.sil 1000 24000 false).encode = 0x00005DC003E80002

/-! ### The serializer and the frame -/

/-- R141: the serializer's recursion, its length, and each of its tokens by position; all are bit tones. -/
def Obligations.EncodeBitsByPosition : Prop :=
  ∀ (bytes : List Byte) (r : Word) (bp : Bool),
    (encodeBits bytes r bp).length = 8 * bytes.length
    ∧ (∀ k, (h : k < 8 * bytes.length) →
        (encodeBits bytes r bp)[k]? = some (tone ((bytes[k / 8]'(by omega)).getLsbD (k % 8)) r bp))
    ∧ (∀ t ∈ encodeBits bytes r bp, t.isTone = true)

/-- R179, R200: the preamble byte and the "N" of the end-of-message marker, as the tokens that leave. That "N" is
0x4E is log 13. -/
def Obligations.PreambleAndMarkerAsTokens : Prop :=
  ∀ (r : Word) (bp : Bool),
    (let M := Token.mark r bp
     let S := Token.space r bp
     encodeBits [0xAB] r bp = [M, M, S, M, S, M, S, M] ∧ encodeBits [0x4E] r bp = [S, M, M, M, S, S, M, S])
    ∧ (encodeBits preamble r bp).length = 128
    ∧ (encodeBits n4 r bp).length = 32

/-- R177: the size and the nominal duration of a sounding segment, from its burst lengths and silences. -/
def Obligations.SegmentSizeAndDuration : Prop :=
  ∀ (kind : SegmentKind) (m : Mode) (hdr : List Byte) (fs : Word) (bp : Bool), m ≠ .npas → m ≠ .wea →
    let n := fun k => (burstBytes kind m hdr k).length
    let tail : Nat × ℚ :=
      match m, kind with
      | .digital, _ => (1, 1000)
      | .trilithic, .hdr => (1, 150)
      | _, _ => (0, 0)
    (frameSegment kind m hdr fs bp).length = 8 * (n 0 + n 1 + n 2) + 2 + tail.1
    ∧ durMs (frameSegment kind m hdr fs bp)
        = 8 * ((n 0 + n 1 + n 2 : Nat) : ℚ) * (100000 / 52083)
          + 2 * (if m = .trilithic then 850 else 1000) + tail.2

/-- R92: on one state, the two forms of a `HDR` or `EOM` command in any of the 16 modes send the same token words but
for bit 2, which is their tag. -/
def Obligations.BandpassTagIsBitTwo : Prop :=
  ∀ (mode : BitVec 4) (s : State),
    ∀ command ∈ [hdrInstr mode, eomInstr mode], ∀ tagged untagged : List Token,
      tokensOf (command true) s = some tagged → tokensOf (command false) s = some untagged →
      tagged.map Token.encode = (untagged.map Token.encode).map (· ||| 4#64)
      ∧ (∀ w ∈ tagged.map Token.encode, w.getLsbD 2 = true)
      ∧ ∀ w ∈ untagged.map Token.encode, w.getLsbD 2 = false

/-- R98, R165: the rates and durations a segment's tokens can carry. -/
def Obligations.SegmentTokenValues : Prop :=
  ∀ (kind : SegmentKind) (m : Mode) (hdr : List Byte) (fs : Word) (bp : Bool), ∀ t ∈ frameSegment kind m hdr fs bp,
    (t.isTone = true ∧ t.rate = (if m = .broadcaster then 44100 else fs) ∧ t.bp = bp)
    ∨ (∃ d : BitVec 16, t = .sil d fs bp ∧ (d = 1000 ∨ d = 850 ∨ d = 150))

/-! ### What each instruction sends -/

/-- R123, R124: `MARK` and `SPACE` send one tone at rate `FS`, then `END`, whatever `HLEN` and `HBUF` hold. -/
def Obligations.MarkAndSpaceSend : Prop :=
  ∀ s : State,
    Sends .mark 0x001 s [.mark s.fs false] false 2 (100000 / 52083)
    ∧ Sends .space 0x002 s [.space s.fs false] false 2 (100000 / 52083)

/-- R142: `ENC` sends the header's bits alone, at rate `FS`, then `END`. -/
def Obligations.EncSends : Prop :=
  ∀ (s : State) (hdr : List Byte), HeaderIs s hdr →
    Sends .enc 0x003 s (encodeBits hdr s.fs false) false (8 * hdr.length + 1)
      (8 * hdr.length * (100000 / 52083))

/-- R166: `HDR.DEFAULT`. -/
def Obligations.HdrDefaultSends : Prop :=
  ∀ (bp : Bool) (s : State) (hdr : List Byte), HeaderIs s hdr →
    let burst := preamble ++ hdr
    Sends (.hdrDefault bp) 0x04 s (threeBursts burst burst burst [.sil 1000 s.fs bp] [] s.fs bp) bp
      (24 * hdr.length + 387) (24 * (16 + hdr.length) * (100000 / 52083) + 2000)

/-- R167: `HDR.SAGE`. -/
def Obligations.HdrSageSends : Prop :=
  ∀ (bp : Bool) (s : State) (hdr : List Byte), HeaderIs s hdr →
    let burst := preamble ++ hdr ++ [0xFF]
    Sends (.hdrSage bp) 0x14 s (threeBursts burst burst burst [.sil 1000 s.fs bp] [] s.fs bp) bp
      (24 * hdr.length + 411) (24 * (17 + hdr.length) * (100000 / 52083) + 2000)

/-- R168: `HDR.DIGITAL`, with a silence after the last burst too (log 12). -/
def Obligations.HdrDigitalSends : Prop :=
  ∀ (bp : Bool) (s : State) (hdr : List Byte), HeaderIs s hdr →
    let burst := preamble ++ hdr ++ [0xFF, 0xFF, 0xFF]
    Sends (.hdrDigital bp) 0x24 s
      (threeBursts (0x00 :: burst) burst burst [.sil 1000 s.fs bp] [.sil 1000 s.fs bp] s.fs bp) bp
      (24 * hdr.length + 468) ((464 + 24 * hdr.length) * (100000 / 52083) + 3000)

/-- R169: `HDR.TRILITHIC`, with its pad after the last burst (log 12). -/
def Obligations.HdrTrilithicSends : Prop :=
  ∀ (bp : Bool) (s : State) (hdr : List Byte), HeaderIs s hdr →
    let burst := preamble ++ hdr
    Sends (.hdrTrilithic bp) 0x34 s
      (threeBursts burst burst burst [.sil 850 s.fs bp] [.sil 150 s.fs bp] s.fs bp) bp
      (24 * hdr.length + 388) (24 * (16 + hdr.length) * (100000 / 52083) + 1850)

/-- R170: `HDR.NWS`. -/
def Obligations.HdrNwsSends : Prop :=
  ∀ (bp : Bool) (s : State) (hdr : List Byte), HeaderIs s hdr →
    let burst := preamble ++ hdr ++ [0x00, 0x00]
    Sends (.hdrNws bp) 0x44 s (threeBursts burst burst burst [.sil 1000 s.fs bp] [] s.fs bp) bp
      (24 * hdr.length + 435) (24 * (18 + hdr.length) * (100000 / 52083) + 2000)

/-- R171: `HDR.BROADCASTER`: its tones carry 44100 whatever `FS` is. -/
def Obligations.HdrBroadcasterSends : Prop :=
  ∀ (bp : Bool) (s : State) (hdr : List Byte), HeaderIs s hdr →
    let burst := preamble ++ hdr ++ [0x00, 0x00, 0x00]
    Sends (.hdrBroadcaster bp) 0x54 s (threeBursts burst burst burst [.sil 1000 s.fs bp] [] 44100 bp) bp
      (24 * hdr.length + 459) (24 * (19 + hdr.length) * (100000 / 52083) + 2000)

/-- R172, R173: the header commands of the silent modes send `END` alone. -/
def Obligations.HdrSilentModesSend : Prop :=
  ∀ (bp : Bool) (s : State) (hdr : List Byte), HeaderIs s hdr →
    Sends (.hdrNpas bp) 0x64 s [] bp 1 0 ∧ Sends (.hdrWea bp) 0x74 s [] bp 1 0

/-- R174: `HDR.FALLBACK` sends what `HDR.DEFAULT` sends, under its own word. -/
def Obligations.HdrFallbackSends : Prop :=
  ∀ (bp : Bool) (mode : BitVec 4) (s : State) (hdr : List Byte), HeaderIs s hdr → 8 ≤ mode.toNat →
    let burst := preamble ++ hdr
    Sends (.hdrFallback bp mode) (mode.toNat * 16 + 0x04) s
      (threeBursts burst burst burst [.sil 1000 s.fs bp] [] s.fs bp) bp
      (24 * hdr.length + 387) (24 * (16 + hdr.length) * (100000 / 52083) + 2000)
    ∧ tokensOf (.hdrFallback bp mode) s = tokensOf (.hdrDefault bp) s

/-- R191: `EOM.DEFAULT`, with "N" as 0x4E (log 13). -/
def Obligations.EomDefaultSends : Prop :=
  ∀ (bp : Bool) (s : State),
    let burst := preamble ++ n4
    Sends (.eomDefault bp) 0x05 s (threeBursts burst burst burst [.sil 1000 s.fs bp] [] s.fs bp) bp
      483 (480 * (100000 / 52083) + 2000)

/-- R192: `EOM.SAGE`, with "N" as 0x4E (log 13). -/
def Obligations.EomSageSends : Prop :=
  ∀ (bp : Bool) (s : State),
    let burst := preamble ++ n4 ++ [0xFF]
    Sends (.eomSage bp) 0x15 s (threeBursts burst burst burst [.sil 1000 s.fs bp] [] s.fs bp) bp
      507 (504 * (100000 / 52083) + 2000)

/-- R193: `EOM.DIGITAL`, with "N" as 0x4E (log 13). -/
def Obligations.EomDigitalSends : Prop :=
  ∀ (bp : Bool) (s : State),
    let burst := preamble ++ n4 ++ [0xFF, 0xFF, 0xFF]
    Sends (.eomDigital bp) 0x25 s
      (threeBursts (0x00 :: burst) burst burst [.sil 1000 s.fs bp] [.sil 1000 s.fs bp] s.fs bp) bp
      564 (560 * (100000 / 52083) + 3000)

/-- R194: `EOM.TRILITHIC`, with no pad (log 12) and "N" as 0x4E (log 13). -/
def Obligations.EomTrilithicSends : Prop :=
  ∀ (bp : Bool) (s : State),
    let burst := preamble ++ n4
    Sends (.eomTrilithic bp) 0x35 s (threeBursts burst burst burst [.sil 850 s.fs bp] [] s.fs bp) bp
      483 (480 * (100000 / 52083) + 1700)

/-- R195: `EOM.NWS`, with "N" as 0x4E (log 13). -/
def Obligations.EomNwsSends : Prop :=
  ∀ (bp : Bool) (s : State),
    let burst := preamble ++ n4 ++ [0x00, 0x00]
    Sends (.eomNws bp) 0x45 s (threeBursts burst burst burst [.sil 1000 s.fs bp] [] s.fs bp) bp
      531 (528 * (100000 / 52083) + 2000)

/-- R196: `EOM.BROADCASTER`: its tones carry 44100 whatever `FS` is; "N" as 0x4E (log 13). -/
def Obligations.EomBroadcasterSends : Prop :=
  ∀ (bp : Bool) (s : State),
    let burst := preamble ++ n4 ++ [0x00, 0x00, 0x00]
    Sends (.eomBroadcaster bp) 0x55 s (threeBursts burst burst burst [.sil 1000 s.fs bp] [] 44100 bp) bp
      555 (552 * (100000 / 52083) + 2000)

/-- R197, R198: the end-of-message commands of the silent modes send `END` alone. -/
def Obligations.EomSilentModesSend : Prop :=
  ∀ (bp : Bool) (s : State), Sends (.eomNpas bp) 0x65 s [] bp 1 0 ∧ Sends (.eomWea bp) 0x75 s [] bp 1 0

/-- R199: `EOM.FALLBACK` sends what `EOM.DEFAULT` sends, under its own word; "N" as 0x4E (log 13). -/
def Obligations.EomFallbackSends : Prop :=
  ∀ (bp : Bool) (mode : BitVec 4) (s : State), 8 ≤ mode.toNat →
    let burst := preamble ++ n4
    Sends (.eomFallback bp mode) (mode.toNat * 16 + 0x05) s
      (threeBursts burst burst burst [.sil 1000 s.fs bp] [] s.fs bp) bp
      483 (480 * (100000 / 52083) + 2000)
    ∧ tokensOf (.eomFallback bp mode) s = tokensOf (.eomDefault bp) s

/-! ### The sequencer's steps -/

/-- In `CHECK` and `RUN` the sequencer's turn is exec of the instruction in `CMD`, whether the turn is scheduled or no
move is left (log 3). -/
def Obligations.StepRunsTheDecodedInstruction : Prop :=
  ∀ (s : State) (i : Instr), s.phase ≠ .idle → decode s.cmd = .ok i →
    (s.inputs = [] → step s = exec i s)
    ∧ (∀ rest, s.inputs = .turn :: rest → step s = exec i { s with inputs := rest })

/-- R36, R102: from `IDLE`, the host's write of an instruction's word to `CMD` is exec of it, and is its acceptance.
That exec issues from `IDLE` is the model's choice (log 6). -/
def Obligations.IssueIsAcceptance : Prop :=
  ∀ (s : State) (i : Instr) (rest : List Input), s.phase = .idle → s.inputs = .write 0 (encode i) :: rest →
    step s = exec i { s with inputs := rest }
    ∧ exec i s = .next
        { s with cmd := encode i, phase := .check, tpc := 0, done := false, err := 0, einfo := 0 }

/-- R36: a write of any word to `CMD` in `IDLE` is accepted, legal or not, and no token is offered in `CHECK`. -/
def Obligations.AcceptanceEffect : Prop :=
  ∀ (s : State) (v : Word) (rest : List Input), s.phase = .idle → s.inputs = .write 0 v :: rest →
    ∃ t, step s = .next t
      ∧ t = { s with inputs := rest, cmd := v, phase := .check, tpc := 0, done := false, err := 0, einfo := 0 }
      ∧ t.outValid = false

/-- R37, R262 to R264, R268: the check step, at a turn of the sequencer that is scheduled or taken because no move is
left, on every word and header; the first error in order decides, and an error entry changes `ERR`, `EINFO`, `PHASE` and
`TPC` alone. Where a legal header command, with `HLEN` at most `HMAX`, finds a cell below `HLEN` unwritten the model faults
(R45, R306; log 1), whatever the written cells hold (log 10). -/
def Obligations.CheckStepDecides : Prop :=
  ∀ (s : State) (rest : List Input),
    s.phase = .check → (s.inputs = .turn :: rest ∨ (s.inputs = [] ∧ rest = [])) →
    let s₀ := { s with inputs := rest }
    (∀ why, decode s.cmd = .rejected why →
      step s = .next { s₀ with err := 1, einfo := s.cmd, phase := .idle, tpc := 0 })
    ∧ ∀ i, decode s.cmd = .ok i →
      (readsHeader i = false → step s = .next { s₀ with phase := .run, tpc := 0 })
      ∧ (readsHeader i = true →
        (s.cap.toNat < s.hlen.toNat →
          step s = .next { s₀ with err := 2, einfo := s.hlen, phase := .idle, tpc := 0 })
        ∧ (s.hlen.toNat ≤ s.cap.toNat → ∀ cells : List Word, cells.length = s.hlen.toNat →
          (∀ j, (h : j < cells.length) → Memory.read s.hbuf j = some cells[j]) →
          (∀ k, (h : k < cells.length) → 255 < (cells[k]).toNat →
            (∀ j, (h' : j < k) → (cells[j]).toNat ≤ 255) →
            step s = .next { s₀ with err := 3, einfo := BitVec.ofNat 32 k, phase := .idle, tpc := 0 })
          ∧ ((∀ j, (h : j < cells.length) → (cells[j]).toNat ≤ 255) →
            step s = .next { s₀ with phase := .run, tpc := 0 }))
        ∧ (s.hlen.toNat ≤ s.cap.toNat → ∀ j, j < s.hlen.toNat → Memory.read s.hbuf j = none →
          step s = .fault .headerCellUnwritten))

/-- R39: the transfer step, from the token list of the command in `CMD`, at a turn of the sequencer that is scheduled or
taken because no move is left. -/
def Obligations.TransferStepDelivers : Prop :=
  ∀ (s : State) (rest : List Input) (toks : List Token) (t : Token),
    s.phase = .run → (s.inputs = .turn :: rest ∨ (s.inputs = [] ∧ rest = [])) → s.outReady = true →
    s.tokens = some toks → toks[s.tpc.toNat]? = some t →
    let s₀ := { s with inputs := rest }
    step s =
      .next
        (if s.tpc.toNat = toks.length - 1 then
          { s₀ with phase := .idle, tpc := 0, done := true, sunk := s.sunk ++ [t.encode] }
         else { s₀ with tpc := s.tpc + 1, sunk := s.sunk ++ [t.encode] })

/-- R31, R38: with the sink not accepting, the sequencer's turn in `RUN`, scheduled or taken because no move is left,
changes nothing and the offered token stays; in `IDLE` its turn changes nothing. -/
def Obligations.StallHoldsTheToken : Prop :=
  ∀ (s : State) (rest : List Input), (s.inputs = .turn :: rest ∨ (s.inputs = [] ∧ rest = [])) →
    ((s.phase = .run ∧ s.outReady = false ∧ s.tokens.isSome = true) ∨ s.phase = .idle) →
    ∃ t, step s = .next t ∧ t = { s with inputs := rest } ∧ t.outData = s.outData ∧ t.outValid = s.outValid

/-- R34: the port offers the word the next transfer delivers, whether the sequencer's turn is scheduled or taken because
no move is left, and offers nothing outside `RUN`. -/
def Obligations.PortOffersWhatIsTransferred : Prop :=
  ∀ s : State,
    (s.phase ≠ .run → s.outValid = false)
    ∧ ∀ t, s.phase = .run → s.outReady = true → s.inputs.head?.getD .turn = .turn → step s = .next t →
        ∃ w, s.outValid = true ∧ s.outData = some w ∧ t.sunk = s.sunk ++ [w]

/-! ### The host and reset -/

/-- R63, R41: each host write, at every address, and what it leaves alone. -/
def Obligations.HostWriteEffects : Prop :=
  ∀ (s : State) (a : HostAddr) (v : Word) (rest : List Input), s.inputs = .write a v :: rest →
    let s₀ := { s with inputs := rest }
    let dropped := { s₀ with busywr := true }
    (a = 0 → step s = .next
      (if s.phase = .idle then
        { s₀ with cmd := v, phase := .check, tpc := 0, done := false, err := 0, einfo := 0 }
       else dropped))
    ∧ (a = 1 → step s = .next (if v.getLsbD 8 then { s₀ with busywr := false } else s₀))
    ∧ (a = 2 → step s = .next (if s.phase = .idle then { s₀ with fs := v } else dropped))
    ∧ (a = 3 → step s = .next (if s.phase = .idle then { s₀ with hlen := v } else dropped))
    ∧ (∀ i, i < s.cap.toNat → a.toNat = 0x10000 + i →
        step s = .next (if s.phase = .idle then { s₀ with hbuf := Memory.write s.hbuf i v } else dropped))
    ∧ (4 ≤ a.toNat → (a.toNat < 0x10000 ∨ s.cap.toNat ≤ a.toNat - 0x10000) → step s = .next s₀)

/-- R61, R62, R64: what each host read returns; it changes nothing of the block. A cell not written since reset has no
value to return and the model faults (log 1). -/
def Obligations.HostReadReturns : Prop :=
  ∀ (s : State) (a : HostAddr) (rest : List Input), s.inputs = .read a :: rest →
    let answer := fun v : Word => { s with inputs := rest, reads := s.reads ++ [v] }
    (a = 0 → step s = .next (answer s.cmd))
    ∧ (a = 1 → step s = .next (answer
        (0#23 ++ BitVec.ofBool s.busywr ++ s.err ++ 0#2 ++ BitVec.ofBool s.done
          ++ BitVec.ofBool (decide (s.phase ≠ .idle)))))
    ∧ (a = 2 → step s = .next (answer s.fs))
    ∧ (a = 3 → step s = .next (answer s.hlen))
    ∧ (a = 4 → step s = .next (answer s.einfo))
    ∧ (a = 5 → step s = .next (answer s.cap))
    ∧ (∀ i, i < s.cap.toNat → a.toNat = 0x10000 + i →
        (∀ v, Memory.read s.hbuf i = some v → step s = .next (answer v))
        ∧ (Memory.read s.hbuf i = none → step s = .fault .hostReadUnwritten))
    ∧ (6 ≤ a.toNat → (a.toNat < 0x10000 ∨ s.cap.toNat ≤ a.toNat - 0x10000) → step s = .next (answer 0))

/-- R24, R72: a cell reads as last written, and a write leaves every other cell alone. -/
def Obligations.CellReadsAsLastWritten : Prop :=
  ∀ (m : Memory) (i : Nat) (v : Word),
    Memory.read (Memory.write m i v) i = some v
    ∧ ∀ j, j ≠ i → Memory.read (Memory.write m i v) j = Memory.read m j

/-- Two canonical memories with the same cells are the same data (log 7: the form is the model's). -/
def Obligations.CanonicalMemoriesAreEqual : Prop :=
  ∀ m₁ m₂ : Memory, Memory.wf m₁ = true → Memory.wf m₂ = true →
    (∀ i, Memory.read m₁ i = Memory.read m₂ i) → m₁ = m₂

/-- R45, R300, R302: a reset strike in any phase leaves the block as R45 lists it, with no cell written, and sends no
token. What is not the block's is kept (log 11). -/
def Obligations.ResetStrikeLeavesTheResetState : Prop :=
  ∀ (s : State) (rest : List Input), s.inputs = .reset :: rest →
    ∃ t, step s = .next t
      ∧ t.fs = 24000 ∧ t.hlen = 0 ∧ t.hbuf = [] ∧ t.cmd = 0x00000000 ∧ t.statusWord = 0x00000000
      ∧ t.done = false ∧ t.err = 0 ∧ t.busywr = false ∧ t.einfo = 0x00000000 ∧ t.cap = s.cap
      ∧ t.phase = .idle ∧ t.tpc = 0 ∧ t.outValid = false
      ∧ t.sunk = s.sunk ∧ t.reads = s.reads ∧ t.outReady = s.outReady ∧ t.inputs = rest

/-- R45: the state after reset, field by field; `CAP`, the sink's level and the empty lists are the model's choices
(log 2, log 3, log 4, log 8). -/
def Obligations.ResetStateValues : Prop :=
  State.reset =
    { fs := 24000, hlen := 0, hbuf := [], cmd := 0, done := false, err := 0, busywr := false, einfo := 0, cap := 1024,
      phase := .idle, tpc := 0, inputs := [], outReady := true, sunk := [], reads := [] }

/-- R103: one poll of `WAIT` reads `STATUS`; it ends when the value read has bit 0 clear. That a poll which finds the
block busy lets the sequencer take one turn is the model's choice (log 15). -/
def Obligations.WaitPollsUntilIdle : Prop :=
  ∀ (s : State) (rest : List Input), s.inputs = .wait :: rest →
    step s = .next
      { s with
        reads := s.reads ++ [s.statusWord]
        inputs := if s.statusWord.getLsbD 0 then .turn :: .wait :: rest else rest }

/-! ### Invariants -/

/-- The invariant holds at reset (for the instance of log 2). -/
def Obligations.InvariantAtReset : Prop := StateInv State.reset

/-- The invariant of reachable states is kept by every step, whoever moves: the memory keeps its canonical form, at
most one of `BUSY`, `DONE` and `ERR` holds, no code above 3 appears, `TPC` is 0 outside `RUN` and inside the token list
of a checked command in `RUN`. -/
def Obligations.StepKeepsInvariant : Prop :=
  ∀ s t : State, StateInv s → step s = .next t → StateInv t

/-- From a state that meets the invariant, a step stops for an unwritten cell alone, and only in the two places of
log 1, the check step of a command that reads the header and a host read; no instruction is refused. -/
def Obligations.OnlyUnwrittenCellsStop : Prop :=
  ∀ s : State, StateInv s →
    (∀ r, step s ≠ .refused r)
    ∧ ∀ f, step s = .fault f →
        (f = .headerCellUnwritten ∧ s.phase = .check ∧ (∃ i, decode s.cmd = .ok i ∧ readsHeader i = true)
          ∧ s.hlen.toNat ≤ s.hmax ∧ ∃ j, j < s.hlen.toNat ∧ Memory.read s.hbuf j = none)
        ∨ (f = .hostReadUnwritten ∧ ∃ a rest i, s.inputs = .read a :: rest ∧ a.toNat = 0x10000 + i ∧ i < s.hmax
          ∧ Memory.read s.hbuf i = none)

/-- R42: what the sequencer's turn and the other moves leave unchanged. -/
def Obligations.StepsChangeOnlyTheirOwn : Prop :=
  ∀ s t : State, step s = .next t →
    (s.inputs.head?.getD .turn = .turn →
      t.fs = s.fs ∧ t.hlen = s.hlen ∧ t.hbuf = s.hbuf ∧ t.cmd = s.cmd ∧ t.cap = s.cap ∧ t.busywr = s.busywr
        ∧ t.reads = s.reads ∧ t.outReady = s.outReady)
    ∧ (∀ a v, s.inputs.head? = some (.write a v) →
        t.sunk = s.sunk ∧ t.cap = s.cap ∧ (a ≠ 0 ∨ s.phase ≠ .idle → t.phase = s.phase ∧ t.tpc = s.tpc)
          ∧ (s.phase ≠ .idle → t.hbuf = s.hbuf))
    ∧ (∀ a, s.inputs.head? = some (.read a) → SameBlock s t ∧ t.sunk = s.sunk)
    ∧ (∀ level, s.inputs.head? = some (.ready level) → SameBlock s t ∧ t.sunk = s.sunk ∧ t.outReady = level)
    ∧ (s.inputs.head? = some .wait → SameBlock s t ∧ t.sunk = s.sunk)

/-- R29: from an accepted command on, exactly one of `BUSY`, `DONE` and `ERR != 0` holds, until a reset. -/
def Obligations.ExactlyOneOutcomeFlag : Prop :=
  (∀ s t : State, StateInv s → outcomeCount s = 1 → s.inputs.head? ≠ some .reset → step s = .next t → outcomeCount t = 1)
  ∧ (∀ (s : State) (v : Word) (rest : List Input) (t : State), s.phase = .idle →
      s.inputs = .write 0 v :: rest → step s = .next t → outcomeCount t = 1)
  ∧ outcomeCount State.reset = 0

/-! ### Whole commands -/

/-- R40, R315: a checked command with an accepting sink completes after its check step and one transfer per token; the
sink has then received exactly its token list, and nothing else of the block has changed. -/
def Obligations.CommandDeliversItsTokens : Prop :=
  ∀ (s : State) (i : Instr) (toks : List Token),
    s.phase = .check → decode s.cmd = .ok i → s.inputs = [] → s.outReady = true → s.hmax ≤ 65535 →
    (readsHeader i = true → ∃ hdr, HeaderIs s hdr) → tokensOf i s = some toks →
    runFor (1 + toks.length) s =
      .next { s with phase := .idle, tpc := 0, done := true, sunk := s.sunk ++ toks.map Token.encode }

/-- R34, R39, R41: until a reset strike or the acceptance of the next command, and whatever else the sink, the host and the
schedule do, the sink has received a prefix of the command's token list, the whole of it exactly when the block is idle
again. -/
def Obligations.StreamIsPrefixUntilResetOrNextCommand : Prop :=
  ∀ (s t : State) (i : Instr) (toks : List Token) (n : Nat),
    s.phase = .run → s.tpc = 0 → decode s.cmd = .ok i → s.hmax ≤ 65535 →
    (readsHeader i = true → ∃ hdr, HeaderIs s hdr) → tokensOf i s = some toks →
    undisturbedFor n s = true → runFor n s = .next t →
    ∃ k, k ≤ toks.length ∧ t.sunk = s.sunk ++ (toks.take k).map Token.encode
      ∧ (t.phase = .idle ↔ k = toks.length) ∧ (s.done = false → (t.done = true ↔ k = toks.length))

/-- R227: the token list is a function of `CMD`, `FS`, `HLEN` and the cells below `HLEN`. -/
def Obligations.TokensDependOnInputsAlone : Prop :=
  ∀ s t : State, t.cmd = s.cmd → t.fs = s.fs → t.hlen = s.hlen →
    (∀ i, i < s.hlen.toNat → Memory.read t.hbuf i = Memory.read s.hbuf i) → t.tokens = s.tokens

/-- R190: an end-of-message command, like `MARK` and `SPACE`, reads neither `HLEN` nor `HBUF`: it checks and sends the
same whatever they hold. -/
def Obligations.HeaderlessCommandsIgnoreTheHeader : Prop :=
  ∀ (i : Instr) (s : State) (hlen : Word) (hbuf : Memory), readsHeader i = false →
    tokensOf i { s with hlen := hlen, hbuf := hbuf } = tokensOf i s
    ∧ ∀ t, exec i s = .next t →
        exec i { s with hlen := hlen, hbuf := hbuf } = .next { t with hlen := hlen, hbuf := hbuf }

/-- R103: `LOADHDR` on an idle block loads the header: afterwards `HLEN` and the cells below it are what was given, every
other cell reads as before, the buffer is in canonical form, and nothing else of the block has changed. -/
def Obligations.LoadHdrLoadsTheHeader : Prop :=
  ∀ (s : State) (codePoints : List Word) (rest : List Input),
    s.phase = .idle → Memory.wf s.hbuf = true → codePoints.length ≤ s.hmax → s.hmax ≤ 65535 →
    s.inputs = loadHdr codePoints ++ rest →
    ∃ t, runFor (codePoints.length + 1) s = .next t
      ∧ t.headerCells = some codePoints ∧ t.hlen = BitVec.ofNat 32 codePoints.length
      ∧ (∀ j, codePoints.length ≤ j → Memory.read t.hbuf j = Memory.read s.hbuf j)
      ∧ Memory.wf t.hbuf = true
      ∧ t = { s with inputs := rest, hlen := t.hlen, hbuf := t.hbuf }

/-- R104, R316: the host script of `genHeader`, run on an idle block with an accepting sink, ends with no move left, the
block idle and `DONE` = 1, the sink having received the header segment of the mode and `END`; it ends well, expecting
nothing, unless a write had been dropped before it. -/
def Obligations.GenHeaderScriptDelivers : Prop :=
  ∀ (s : State) (hdr : List Byte) (mode : BitVec 4) (rate : Word) (bp : Bool),
    s.phase = .idle → s.outReady = true → Memory.wf s.hbuf = true → hdr.length ≤ s.hmax → s.hmax ≤ 65535 →
    s.inputs = callGenHeader (hdr.map (BitVec.setWidth 32)) mode rate bp →
    ∃ n t, runFor n s = .next t ∧ t.inputs = [] ∧ Ended t ∧ t.done = true ∧ t.err = 0 ∧ t.busywr = s.busywr
      ∧ t.fs = rate
      ∧ t.sunk = s.sunk
          ++ (frameSegment .hdr (effMode mode) hdr rate bp ++ [Token.fin rate bp]).map Token.encode
      ∧ (s.busywr = false → EndedWell .nothing t)

/-! ### The sink and the surrounding software -/

/-- R125: the sample count of a bit tone is within one of `r * 100 / 52083`, for either kind. -/
def Obligations.SampleCountWithinOne : Prop :=
  ∀ (k : ToneKind) (r : Word), |(samplesPerBit k r : ℚ) - (r.toNat : ℚ) * 100 / 52083| ≤ 1

/-- R120, R121, R126, R127: what each token denotes and how long it lasts; a list denotes the concatenation and lasts the
sum; every buffer is mono and 16-bit. The audio is that before the rate conversion and the filter that the sink owes
(log 19). -/
def Obligations.AudioAndDurationOfTokens : Prop :=
  (∀ (r : Word) (bp : Bool) (d : BitVec 16),
    audio [.mark r bp] =
      [.tone { hz := 20833 / 10, ms := 1000 / (52083 / 100), gainDb := -3, depth := 16, channels := 1, rate := r }]
    ∧ audio [.space r bp] =
      [.tone { hz := 15625 / 10, ms := 1000 / (52083 / 100), gainDb := -3, depth := 16, channels := 1, rate := r }]
    ∧ audio [.sil d r bp] = [.silence { ms := d.toNat, depth := 16, channels := 1, rate := r }]
    ∧ audio [.fin r bp] = []
    ∧ durMs [.mark r bp] = 100000 / 52083 ∧ durMs [.space r bp] = 100000 / 52083
    ∧ durMs [.sil d r bp] = (d.toNat : ℚ) ∧ durMs [.fin r bp] = 0)
  ∧ audio [] = [] ∧ durMs [] = 0
  ∧ ∀ l₁ l₂ : List Token,
    durMs (l₁ ++ l₂) = durMs l₁ + durMs l₂ ∧ audio (l₁ ++ l₂) = audio l₁ ++ audio l₂
    ∧ ∀ part ∈ audio l₁, part.depth = 16 ∧ part.channels = 1

/-- R225: the alert's duration is the sum of its parts (the host's side; log 22). -/
def Obligations.AlertDurationComposes : Prop :=
  ∀ a : AlertArgs,
    (genEas a).ms =
      500 + durMs (frameSegment .hdr a.mode a.header a.rate a.tag)
        + (if a.attention || forcesAttention a.mode then (genAttentionTone a.mode a.rate a.tag).ms + 1000 else 0)
        + a.payloadMs
        + (if a.endOfMessage then durMs (frameSegment .eom a.mode [] a.rate a.tag) else 0)
        + 500

/-! ### The end of a script -/

/-- R316, R264: the host script of `encodeBits` on code points of which one is above 255 ends with `EncodingError`, the
least such index in `EINFO` and no token sent, whatever the sink does. It ends well for a script that expects that error
and for no other (what a script expects is log 23), unless a write had been dropped before it. -/
def Obligations.FailingScriptEndsAsExpected : Prop :=
  ∀ (s : State) (codePoints : List Word) (rate : Word) (k : Nat) (h : k < codePoints.length),
    s.phase = .idle → codePoints.length ≤ s.hmax → s.hmax ≤ 65535 →
    255 < (codePoints[k]).toNat → (∀ j, (h' : j < k) → (codePoints[j]).toNat ≤ 255) →
    s.inputs = callEncodeBits codePoints rate →
    ∃ n t, runFor n s = .next t ∧ Ended t ∧ t.err = 3 ∧ t.einfo = BitVec.ofNat 32 k ∧ t.done = false ∧ t.sunk = s.sunk
      ∧ (s.busywr = false → ∀ expects, EndedWell expects t ↔ .encodingError ∈ expects.errors)
end

