-- ==== Sys2Proof/Laws/Audio.lean ====
section
/-! SUPPORT. The sample count of a bit tone is an admitted one, and every piece of audio has one format. -/

namespace Sys2Proof.Machine

theorem samplesLow_le_high (r : Word) : samplesLow r ≤ samplesHigh r := by
  have := Nat.ceil_le_floor_add_one (exactSamples r)
  unfold samplesLow samplesHigh
  omega

/-- R125: all that is known of the count. -/
theorem samplesPerBit_admitted (k : ToneKind) (r : Word) :
    samplesLow r ≤ samplesPerBit k r ∧ samplesPerBit k r ≤ samplesHigh r := by
  have h := samplesLow_le_high r
  have := Nat.mod_lt (Config.bitRounding k r) (show 0 < samplesHigh r - samplesLow r + 1 by omega)
  unfold samplesPerBit
  omega

@[simp] theorem audio_nil : audio [] = [] := rfl

@[simp] theorem audio_cons (t : Token) (l : List Token) : audio (t :: l) = tokenAudio t ++ audio l := rfl

@[simp] theorem durMs_nil : durMs [] = 0 := rfl

@[simp] theorem durMs_cons (t : Token) (l : List Token) : durMs (t :: l) = tokenMs t + durMs l := rfl

/-- R127: the pieces one token adds are mono, at the sample width of R6. -/
theorem tokenAudio_format {t : Token} {part : AudioPart} (h : part ∈ tokenAudio t) :
    part.depth = consts.toneDepth ∧ part.channels = consts.channels := by
  cases t <;> simp only [tokenAudio, List.mem_singleton, List.not_mem_nil] at h <;> subst h <;> exact ⟨rfl, rfl⟩

end Sys2Proof.Machine
end

