-- ==== Sys2Proof/Laws/Memory.lean ====
section
/-! SUPPORT. Every memory operation keeps the canonical form, and what reading a range of cells answers. -/

namespace Sys2Proof.Machine

/-- The tail of a canonical memory is canonical, and its head index is the least. -/
theorem Memory.wf_cons {c : Nat × Word} {rest : Memory} (h : Memory.wf (c :: rest) = true) :
    Memory.wf rest = true ∧ ∀ d ∈ rest, c.1 < d.1 := by
  induction rest generalizing c with
  | nil => simp [Memory.wf]
  | cons d tail ih =>
    obtain ⟨i, v⟩ := c
    obtain ⟨j, u⟩ := d
    simp only [Memory.wf, Bool.and_eq_true, decide_eq_true_eq] at h
    have hr : Memory.wf ((j, u) :: tail) = true := h.2
    refine ⟨hr, fun e he => ?_⟩
    rcases List.mem_cons.1 he with rfl | he
    · exact h.1
    · exact lt_trans h.1 ((ih hr).2 e he)

theorem Memory.wf_of_head_lt {c : Nat × Word} {rest : Memory} (hr : Memory.wf rest = true)
    (hc : ∀ d ∈ rest.head?, c.1 < d.1) : Memory.wf (c :: rest) = true := by
  obtain ⟨i, v⟩ := c
  cases rest with
  | nil => rfl
  | cons d tail =>
    obtain ⟨j, u⟩ := d
    simp only [Memory.wf, Bool.and_eq_true, decide_eq_true_eq]
    exact ⟨hc (j, u) rfl, hr⟩

/-- The head of a written memory is the written cell or the old head. -/
theorem Memory.write_head (m : Memory) (i : Nat) (v : Word) :
    ∀ d ∈ (Memory.write m i v).head?, d.1 = i ∨ ∃ e ∈ m.head?, d.1 = e.1 := by
  cases m with
  | nil => simp [Memory.write]
  | cons c rest =>
    obtain ⟨j, u⟩ := c
    simp only [Memory.write]
    split
    · simp
    · split <;> simp

theorem Memory.wf_write {m : Memory} (h : Memory.wf m = true) (i : Nat) (v : Word) :
    Memory.wf (Memory.write m i v) = true := by
  induction m with
  | nil => rfl
  | cons c rest ih =>
    obtain ⟨j, u⟩ := c
    obtain ⟨hr, hlt⟩ := Memory.wf_cons h
    simp only [Memory.write]
    split
    · exact Memory.wf_of_head_lt h (by simpa using ‹i < j›)
    · split
      · exact Memory.wf_of_head_lt hr fun d hd => hlt d (List.mem_of_mem_head? hd)
      · refine Memory.wf_of_head_lt (ih hr) fun d hd => ?_
        rcases Memory.write_head rest i v d hd with hi | ⟨e, he, hi⟩
        · simp only [hi]; omega
        · simpa only [hi] using hlt e (List.mem_of_mem_head? he)

theorem Memory.within_write {m : Memory} {n : Nat} (h : Memory.within m n = true) {i : Nat} (hi : i < n)
    (v : Word) : Memory.within (Memory.write m i v) n = true := by
  induction m with
  | nil => simpa [Memory.write, Memory.within] using hi
  | cons c rest ih =>
    obtain ⟨j, u⟩ := c
    simp only [Memory.within, List.all_cons, Bool.and_eq_true, decide_eq_true_eq] at h ih
    simp only [Memory.write]
    split
    · simp [Memory.within, hi, h]
    · split
      · simp [Memory.within, h]
      · simpa [Memory.within, h] using ih h.2

/-- A range that is read whole has as many cells as were asked for, and each is the cell of its index. -/
theorem Memory.readRange_some {m : Memory} {start count : Nat} {l : List Word} :
    Memory.readRange m start count = some l ↔
      l.length = count ∧ ∀ j, (h : j < l.length) → Memory.read m (start + j) = some l[j] := by
  induction count generalizing start l with
  | zero =>
    simp only [Memory.readRange, Option.some.injEq]
    constructor
    · rintro rfl; simp
    · rintro ⟨h, -⟩; exact (List.eq_nil_of_length_eq_zero h).symm
  | succ n ih =>
    simp only [Memory.readRange]
    constructor
    · intro h
      split at h
      · rename_i v rest hv hrest
        obtain rfl := Option.some.inj h
        obtain ⟨hl, hr⟩ := ih.1 hrest
        refine ⟨by simp [hl], fun j hj => ?_⟩
        cases j with
        | zero => simpa using hv
        | succ j => simpa [Nat.add_assoc, Nat.add_comm 1] using hr j (by simpa using hj)
      · cases h
    · rintro ⟨hl, hr⟩
      cases l with
      | nil => simp at hl
      | cons v rest =>
        have hv : Memory.read m start = some v := hr 0 (by simp)
        have hrest : Memory.readRange m (start + 1) n = some rest :=
          ih.2 ⟨by simpa using hl, fun j hj => by
            rw [Nat.add_assoc, Nat.add_comm 1]; exact hr (j + 1) (by simpa using hj)⟩
        simp [hv, hrest]

/-- A range is not read whole exactly when one of its cells is unwritten. -/
theorem Memory.readRange_none {m : Memory} {start count : Nat} :
    Memory.readRange m start count = none ↔ ∃ j, j < count ∧ Memory.read m (start + j) = none := by
  induction count generalizing start with
  | zero => simp [Memory.readRange]
  | succ n ih =>
    simp only [Memory.readRange]
    constructor
    · intro h
      cases hv : Memory.read m start with
      | none => exact ⟨0, by omega, hv⟩
      | some v =>
        cases hr : Memory.readRange m (start + 1) n with
        | none =>
          obtain ⟨j, hj, hn⟩ := ih.1 hr
          exact ⟨j + 1, by omega, by simpa [Nat.add_assoc, Nat.add_comm 1] using hn⟩
        | some rest => simp [hv, hr] at h
    · rintro ⟨j, hj, hn⟩
      cases j with
      | zero => simp only [Nat.add_zero] at hn; simp [hn]
      | succ j =>
        have hr : Memory.readRange m (start + 1) n = none :=
          ih.2 ⟨j, by omega, by simpa [Nat.add_assoc, Nat.add_comm 1] using hn⟩
        simp [hr]

/-- Reading a range depends on the cells of the range alone. -/
theorem Memory.readRange_congr {m₁ m₂ : Memory} {start count : Nat}
    (h : ∀ j, j < count → Memory.read m₁ (start + j) = Memory.read m₂ (start + j)) :
    Memory.readRange m₁ start count = Memory.readRange m₂ start count := by
  induction count generalizing start with
  | zero => rfl
  | succ n ih =>
    have h0 : Memory.read m₁ start = Memory.read m₂ start := by simpa using h 0 (by omega)
    have hr := @ih (start + 1) fun j hj => by
      simpa [Nat.add_assoc, Nat.add_comm 1] using h (j + 1) (by omega)
    simp only [Memory.readRange, h0, hr]

end Sys2Proof.Machine
end

