-- ==== Sys2Proof/Laws/State.lean ====
section
/-! SUPPORT. One lemma per field per update of State, each true by unfolding the update once. -/

namespace Sys2Proof.Machine

variable (s : State)

/-! ### accept -/

@[simp] theorem State.accept_fs (v : Word) : (s.accept v).fs = s.fs := rfl
@[simp] theorem State.accept_hlen (v : Word) : (s.accept v).hlen = s.hlen := rfl
@[simp] theorem State.accept_hbuf (v : Word) : (s.accept v).hbuf = s.hbuf := rfl
@[simp] theorem State.accept_cmd (v : Word) : (s.accept v).cmd = v := rfl
@[simp] theorem State.accept_done (v : Word) : (s.accept v).done = false := rfl
@[simp] theorem State.accept_err (v : Word) : (s.accept v).err = 0 := rfl
@[simp] theorem State.accept_busywr (v : Word) : (s.accept v).busywr = s.busywr := rfl
@[simp] theorem State.accept_einfo (v : Word) : (s.accept v).einfo = 0 := rfl
@[simp] theorem State.accept_cap (v : Word) : (s.accept v).cap = s.cap := rfl
@[simp] theorem State.accept_phase (v : Word) : (s.accept v).phase = .check := rfl
@[simp] theorem State.accept_tpc (v : Word) : (s.accept v).tpc = 0 := rfl
@[simp] theorem State.accept_inputs (v : Word) : (s.accept v).inputs = s.inputs := rfl
@[simp] theorem State.accept_outReady (v : Word) : (s.accept v).outReady = s.outReady := rfl
@[simp] theorem State.accept_sunk (v : Word) : (s.accept v).sunk = s.sunk := rfl
@[simp] theorem State.accept_reads (v : Word) : (s.accept v).reads = s.reads := rfl

/-! ### raise -/

@[simp] theorem State.raise_fs (e : BlockError) (info : Word) : (s.raise e info).fs = s.fs := rfl
@[simp] theorem State.raise_hlen (e : BlockError) (info : Word) : (s.raise e info).hlen = s.hlen := rfl
@[simp] theorem State.raise_hbuf (e : BlockError) (info : Word) : (s.raise e info).hbuf = s.hbuf := rfl
@[simp] theorem State.raise_cmd (e : BlockError) (info : Word) : (s.raise e info).cmd = s.cmd := rfl
@[simp] theorem State.raise_done (e : BlockError) (info : Word) : (s.raise e info).done = s.done := rfl
@[simp] theorem State.raise_err (e : BlockError) (info : Word) : (s.raise e info).err = errorCode e := rfl
@[simp] theorem State.raise_busywr (e : BlockError) (info : Word) : (s.raise e info).busywr = s.busywr := rfl
@[simp] theorem State.raise_einfo (e : BlockError) (info : Word) : (s.raise e info).einfo = info := rfl
@[simp] theorem State.raise_cap (e : BlockError) (info : Word) : (s.raise e info).cap = s.cap := rfl
@[simp] theorem State.raise_phase (e : BlockError) (info : Word) : (s.raise e info).phase = .idle := rfl
@[simp] theorem State.raise_tpc (e : BlockError) (info : Word) : (s.raise e info).tpc = 0 := rfl
@[simp] theorem State.raise_inputs (e : BlockError) (info : Word) : (s.raise e info).inputs = s.inputs := rfl
@[simp] theorem State.raise_outReady (e : BlockError) (info : Word) : (s.raise e info).outReady = s.outReady := rfl
@[simp] theorem State.raise_sunk (e : BlockError) (info : Word) : (s.raise e info).sunk = s.sunk := rfl
@[simp] theorem State.raise_reads (e : BlockError) (info : Word) : (s.raise e info).reads = s.reads := rfl

/-! ### enterRun -/

@[simp] theorem State.enterRun_fs : (s.enterRun).fs = s.fs := rfl
@[simp] theorem State.enterRun_hlen : (s.enterRun).hlen = s.hlen := rfl
@[simp] theorem State.enterRun_hbuf : (s.enterRun).hbuf = s.hbuf := rfl
@[simp] theorem State.enterRun_cmd : (s.enterRun).cmd = s.cmd := rfl
@[simp] theorem State.enterRun_done : (s.enterRun).done = s.done := rfl
@[simp] theorem State.enterRun_err : (s.enterRun).err = s.err := rfl
@[simp] theorem State.enterRun_busywr : (s.enterRun).busywr = s.busywr := rfl
@[simp] theorem State.enterRun_einfo : (s.enterRun).einfo = s.einfo := rfl
@[simp] theorem State.enterRun_cap : (s.enterRun).cap = s.cap := rfl
@[simp] theorem State.enterRun_phase : (s.enterRun).phase = .run := rfl
@[simp] theorem State.enterRun_tpc : (s.enterRun).tpc = 0 := rfl
@[simp] theorem State.enterRun_inputs : (s.enterRun).inputs = s.inputs := rfl
@[simp] theorem State.enterRun_outReady : (s.enterRun).outReady = s.outReady := rfl
@[simp] theorem State.enterRun_sunk : (s.enterRun).sunk = s.sunk := rfl
@[simp] theorem State.enterRun_reads : (s.enterRun).reads = s.reads := rfl

/-! ### advance -/

@[simp] theorem State.advance_fs (t : Token) : (s.advance t).fs = s.fs := rfl
@[simp] theorem State.advance_hlen (t : Token) : (s.advance t).hlen = s.hlen := rfl
@[simp] theorem State.advance_hbuf (t : Token) : (s.advance t).hbuf = s.hbuf := rfl
@[simp] theorem State.advance_cmd (t : Token) : (s.advance t).cmd = s.cmd := rfl
@[simp] theorem State.advance_done (t : Token) : (s.advance t).done = s.done := rfl
@[simp] theorem State.advance_err (t : Token) : (s.advance t).err = s.err := rfl
@[simp] theorem State.advance_busywr (t : Token) : (s.advance t).busywr = s.busywr := rfl
@[simp] theorem State.advance_einfo (t : Token) : (s.advance t).einfo = s.einfo := rfl
@[simp] theorem State.advance_cap (t : Token) : (s.advance t).cap = s.cap := rfl
@[simp] theorem State.advance_phase (t : Token) : (s.advance t).phase = s.phase := rfl
@[simp] theorem State.advance_tpc (t : Token) : (s.advance t).tpc = s.tpc + 1 := rfl
@[simp] theorem State.advance_inputs (t : Token) : (s.advance t).inputs = s.inputs := rfl
@[simp] theorem State.advance_outReady (t : Token) : (s.advance t).outReady = s.outReady := rfl
@[simp] theorem State.advance_sunk (t : Token) : (s.advance t).sunk = s.sunk ++ [t.encode] := rfl
@[simp] theorem State.advance_reads (t : Token) : (s.advance t).reads = s.reads := rfl

/-! ### complete -/

@[simp] theorem State.complete_fs (t : Token) : (s.complete t).fs = s.fs := rfl
@[simp] theorem State.complete_hlen (t : Token) : (s.complete t).hlen = s.hlen := rfl
@[simp] theorem State.complete_hbuf (t : Token) : (s.complete t).hbuf = s.hbuf := rfl
@[simp] theorem State.complete_cmd (t : Token) : (s.complete t).cmd = s.cmd := rfl
@[simp] theorem State.complete_done (t : Token) : (s.complete t).done = true := rfl
@[simp] theorem State.complete_err (t : Token) : (s.complete t).err = s.err := rfl
@[simp] theorem State.complete_busywr (t : Token) : (s.complete t).busywr = s.busywr := rfl
@[simp] theorem State.complete_einfo (t : Token) : (s.complete t).einfo = s.einfo := rfl
@[simp] theorem State.complete_cap (t : Token) : (s.complete t).cap = s.cap := rfl
@[simp] theorem State.complete_phase (t : Token) : (s.complete t).phase = .idle := rfl
@[simp] theorem State.complete_tpc (t : Token) : (s.complete t).tpc = 0 := rfl
@[simp] theorem State.complete_inputs (t : Token) : (s.complete t).inputs = s.inputs := rfl
@[simp] theorem State.complete_outReady (t : Token) : (s.complete t).outReady = s.outReady := rfl
@[simp] theorem State.complete_sunk (t : Token) : (s.complete t).sunk = s.sunk ++ [t.encode] := rfl
@[simp] theorem State.complete_reads (t : Token) : (s.complete t).reads = s.reads := rfl

/-! ### dropWrite -/

@[simp] theorem State.dropWrite_fs : (s.dropWrite).fs = s.fs := rfl
@[simp] theorem State.dropWrite_hlen : (s.dropWrite).hlen = s.hlen := rfl
@[simp] theorem State.dropWrite_hbuf : (s.dropWrite).hbuf = s.hbuf := rfl
@[simp] theorem State.dropWrite_cmd : (s.dropWrite).cmd = s.cmd := rfl
@[simp] theorem State.dropWrite_done : (s.dropWrite).done = s.done := rfl
@[simp] theorem State.dropWrite_err : (s.dropWrite).err = s.err := rfl
@[simp] theorem State.dropWrite_busywr : (s.dropWrite).busywr = true := rfl
@[simp] theorem State.dropWrite_einfo : (s.dropWrite).einfo = s.einfo := rfl
@[simp] theorem State.dropWrite_cap : (s.dropWrite).cap = s.cap := rfl
@[simp] theorem State.dropWrite_phase : (s.dropWrite).phase = s.phase := rfl
@[simp] theorem State.dropWrite_tpc : (s.dropWrite).tpc = s.tpc := rfl
@[simp] theorem State.dropWrite_inputs : (s.dropWrite).inputs = s.inputs := rfl
@[simp] theorem State.dropWrite_outReady : (s.dropWrite).outReady = s.outReady := rfl
@[simp] theorem State.dropWrite_sunk : (s.dropWrite).sunk = s.sunk := rfl
@[simp] theorem State.dropWrite_reads : (s.dropWrite).reads = s.reads := rfl

/-! ### setFs -/

@[simp] theorem State.setFs_fs (v : Word) : (s.setFs v).fs = v := rfl
@[simp] theorem State.setFs_hlen (v : Word) : (s.setFs v).hlen = s.hlen := rfl
@[simp] theorem State.setFs_hbuf (v : Word) : (s.setFs v).hbuf = s.hbuf := rfl
@[simp] theorem State.setFs_cmd (v : Word) : (s.setFs v).cmd = s.cmd := rfl
@[simp] theorem State.setFs_done (v : Word) : (s.setFs v).done = s.done := rfl
@[simp] theorem State.setFs_err (v : Word) : (s.setFs v).err = s.err := rfl
@[simp] theorem State.setFs_busywr (v : Word) : (s.setFs v).busywr = s.busywr := rfl
@[simp] theorem State.setFs_einfo (v : Word) : (s.setFs v).einfo = s.einfo := rfl
@[simp] theorem State.setFs_cap (v : Word) : (s.setFs v).cap = s.cap := rfl
@[simp] theorem State.setFs_phase (v : Word) : (s.setFs v).phase = s.phase := rfl
@[simp] theorem State.setFs_tpc (v : Word) : (s.setFs v).tpc = s.tpc := rfl
@[simp] theorem State.setFs_inputs (v : Word) : (s.setFs v).inputs = s.inputs := rfl
@[simp] theorem State.setFs_outReady (v : Word) : (s.setFs v).outReady = s.outReady := rfl
@[simp] theorem State.setFs_sunk (v : Word) : (s.setFs v).sunk = s.sunk := rfl
@[simp] theorem State.setFs_reads (v : Word) : (s.setFs v).reads = s.reads := rfl

/-! ### setHlen -/

@[simp] theorem State.setHlen_fs (v : Word) : (s.setHlen v).fs = s.fs := rfl
@[simp] theorem State.setHlen_hlen (v : Word) : (s.setHlen v).hlen = v := rfl
@[simp] theorem State.setHlen_hbuf (v : Word) : (s.setHlen v).hbuf = s.hbuf := rfl
@[simp] theorem State.setHlen_cmd (v : Word) : (s.setHlen v).cmd = s.cmd := rfl
@[simp] theorem State.setHlen_done (v : Word) : (s.setHlen v).done = s.done := rfl
@[simp] theorem State.setHlen_err (v : Word) : (s.setHlen v).err = s.err := rfl
@[simp] theorem State.setHlen_busywr (v : Word) : (s.setHlen v).busywr = s.busywr := rfl
@[simp] theorem State.setHlen_einfo (v : Word) : (s.setHlen v).einfo = s.einfo := rfl
@[simp] theorem State.setHlen_cap (v : Word) : (s.setHlen v).cap = s.cap := rfl
@[simp] theorem State.setHlen_phase (v : Word) : (s.setHlen v).phase = s.phase := rfl
@[simp] theorem State.setHlen_tpc (v : Word) : (s.setHlen v).tpc = s.tpc := rfl
@[simp] theorem State.setHlen_inputs (v : Word) : (s.setHlen v).inputs = s.inputs := rfl
@[simp] theorem State.setHlen_outReady (v : Word) : (s.setHlen v).outReady = s.outReady := rfl
@[simp] theorem State.setHlen_sunk (v : Word) : (s.setHlen v).sunk = s.sunk := rfl
@[simp] theorem State.setHlen_reads (v : Word) : (s.setHlen v).reads = s.reads := rfl

/-! ### setCell -/

@[simp] theorem State.setCell_fs (i : Nat) (v : Word) : (s.setCell i v).fs = s.fs := rfl
@[simp] theorem State.setCell_hlen (i : Nat) (v : Word) : (s.setCell i v).hlen = s.hlen := rfl
@[simp] theorem State.setCell_hbuf (i : Nat) (v : Word) : (s.setCell i v).hbuf = Memory.write s.hbuf i v := rfl
@[simp] theorem State.setCell_cmd (i : Nat) (v : Word) : (s.setCell i v).cmd = s.cmd := rfl
@[simp] theorem State.setCell_done (i : Nat) (v : Word) : (s.setCell i v).done = s.done := rfl
@[simp] theorem State.setCell_err (i : Nat) (v : Word) : (s.setCell i v).err = s.err := rfl
@[simp] theorem State.setCell_busywr (i : Nat) (v : Word) : (s.setCell i v).busywr = s.busywr := rfl
@[simp] theorem State.setCell_einfo (i : Nat) (v : Word) : (s.setCell i v).einfo = s.einfo := rfl
@[simp] theorem State.setCell_cap (i : Nat) (v : Word) : (s.setCell i v).cap = s.cap := rfl
@[simp] theorem State.setCell_phase (i : Nat) (v : Word) : (s.setCell i v).phase = s.phase := rfl
@[simp] theorem State.setCell_tpc (i : Nat) (v : Word) : (s.setCell i v).tpc = s.tpc := rfl
@[simp] theorem State.setCell_inputs (i : Nat) (v : Word) : (s.setCell i v).inputs = s.inputs := rfl
@[simp] theorem State.setCell_outReady (i : Nat) (v : Word) : (s.setCell i v).outReady = s.outReady := rfl
@[simp] theorem State.setCell_sunk (i : Nat) (v : Word) : (s.setCell i v).sunk = s.sunk := rfl
@[simp] theorem State.setCell_reads (i : Nat) (v : Word) : (s.setCell i v).reads = s.reads := rfl

/-! ### logRead -/

@[simp] theorem State.logRead_fs (v : Word) : (s.logRead v).fs = s.fs := rfl
@[simp] theorem State.logRead_hlen (v : Word) : (s.logRead v).hlen = s.hlen := rfl
@[simp] theorem State.logRead_hbuf (v : Word) : (s.logRead v).hbuf = s.hbuf := rfl
@[simp] theorem State.logRead_cmd (v : Word) : (s.logRead v).cmd = s.cmd := rfl
@[simp] theorem State.logRead_done (v : Word) : (s.logRead v).done = s.done := rfl
@[simp] theorem State.logRead_err (v : Word) : (s.logRead v).err = s.err := rfl
@[simp] theorem State.logRead_busywr (v : Word) : (s.logRead v).busywr = s.busywr := rfl
@[simp] theorem State.logRead_einfo (v : Word) : (s.logRead v).einfo = s.einfo := rfl
@[simp] theorem State.logRead_cap (v : Word) : (s.logRead v).cap = s.cap := rfl
@[simp] theorem State.logRead_phase (v : Word) : (s.logRead v).phase = s.phase := rfl
@[simp] theorem State.logRead_tpc (v : Word) : (s.logRead v).tpc = s.tpc := rfl
@[simp] theorem State.logRead_inputs (v : Word) : (s.logRead v).inputs = s.inputs := rfl
@[simp] theorem State.logRead_outReady (v : Word) : (s.logRead v).outReady = s.outReady := rfl
@[simp] theorem State.logRead_sunk (v : Word) : (s.logRead v).sunk = s.sunk := rfl
@[simp] theorem State.logRead_reads (v : Word) : (s.logRead v).reads = s.reads ++ [v] := rfl

/-! ### setReady -/

@[simp] theorem State.setReady_fs (level : Bool) : (s.setReady level).fs = s.fs := rfl
@[simp] theorem State.setReady_hlen (level : Bool) : (s.setReady level).hlen = s.hlen := rfl
@[simp] theorem State.setReady_hbuf (level : Bool) : (s.setReady level).hbuf = s.hbuf := rfl
@[simp] theorem State.setReady_cmd (level : Bool) : (s.setReady level).cmd = s.cmd := rfl
@[simp] theorem State.setReady_done (level : Bool) : (s.setReady level).done = s.done := rfl
@[simp] theorem State.setReady_err (level : Bool) : (s.setReady level).err = s.err := rfl
@[simp] theorem State.setReady_busywr (level : Bool) : (s.setReady level).busywr = s.busywr := rfl
@[simp] theorem State.setReady_einfo (level : Bool) : (s.setReady level).einfo = s.einfo := rfl
@[simp] theorem State.setReady_cap (level : Bool) : (s.setReady level).cap = s.cap := rfl
@[simp] theorem State.setReady_phase (level : Bool) : (s.setReady level).phase = s.phase := rfl
@[simp] theorem State.setReady_tpc (level : Bool) : (s.setReady level).tpc = s.tpc := rfl
@[simp] theorem State.setReady_inputs (level : Bool) : (s.setReady level).inputs = s.inputs := rfl
@[simp] theorem State.setReady_outReady (level : Bool) : (s.setReady level).outReady = level := rfl
@[simp] theorem State.setReady_sunk (level : Bool) : (s.setReady level).sunk = s.sunk := rfl
@[simp] theorem State.setReady_reads (level : Bool) : (s.setReady level).reads = s.reads := rfl

/-! ### strike -/

@[simp] theorem State.strike_fs : (s.strike).fs = consts.fsDefault := rfl
@[simp] theorem State.strike_hlen : (s.strike).hlen = 0 := rfl
@[simp] theorem State.strike_hbuf : (s.strike).hbuf = [] := rfl
@[simp] theorem State.strike_cmd : (s.strike).cmd = 0 := rfl
@[simp] theorem State.strike_done : (s.strike).done = false := rfl
@[simp] theorem State.strike_err : (s.strike).err = 0 := rfl
@[simp] theorem State.strike_busywr : (s.strike).busywr = false := rfl
@[simp] theorem State.strike_einfo : (s.strike).einfo = 0 := rfl
@[simp] theorem State.strike_cap : (s.strike).cap = s.cap := rfl
@[simp] theorem State.strike_phase : (s.strike).phase = .idle := rfl
@[simp] theorem State.strike_tpc : (s.strike).tpc = 0 := rfl
@[simp] theorem State.strike_inputs : (s.strike).inputs = s.inputs := rfl
@[simp] theorem State.strike_outReady : (s.strike).outReady = s.outReady := rfl
@[simp] theorem State.strike_sunk : (s.strike).sunk = s.sunk := rfl
@[simp] theorem State.strike_reads : (s.strike).reads = s.reads := rfl

/-! ### writeStatus -/

@[simp] theorem State.writeStatus_fs (v : Word) : (s.writeStatus v).fs = s.fs := by
  unfold State.writeStatus; split <;> rfl
@[simp] theorem State.writeStatus_hlen (v : Word) : (s.writeStatus v).hlen = s.hlen := by
  unfold State.writeStatus; split <;> rfl
@[simp] theorem State.writeStatus_hbuf (v : Word) : (s.writeStatus v).hbuf = s.hbuf := by
  unfold State.writeStatus; split <;> rfl
@[simp] theorem State.writeStatus_cmd (v : Word) : (s.writeStatus v).cmd = s.cmd := by
  unfold State.writeStatus; split <;> rfl
@[simp] theorem State.writeStatus_done (v : Word) : (s.writeStatus v).done = s.done := by
  unfold State.writeStatus; split <;> rfl
@[simp] theorem State.writeStatus_err (v : Word) : (s.writeStatus v).err = s.err := by
  unfold State.writeStatus; split <;> rfl
@[simp] theorem State.writeStatus_einfo (v : Word) : (s.writeStatus v).einfo = s.einfo := by
  unfold State.writeStatus; split <;> rfl
@[simp] theorem State.writeStatus_cap (v : Word) : (s.writeStatus v).cap = s.cap := by
  unfold State.writeStatus; split <;> rfl
@[simp] theorem State.writeStatus_phase (v : Word) : (s.writeStatus v).phase = s.phase := by
  unfold State.writeStatus; split <;> rfl
@[simp] theorem State.writeStatus_tpc (v : Word) : (s.writeStatus v).tpc = s.tpc := by
  unfold State.writeStatus; split <;> rfl
@[simp] theorem State.writeStatus_inputs (v : Word) : (s.writeStatus v).inputs = s.inputs := by
  unfold State.writeStatus; split <;> rfl
@[simp] theorem State.writeStatus_outReady (v : Word) : (s.writeStatus v).outReady = s.outReady := by
  unfold State.writeStatus; split <;> rfl
@[simp] theorem State.writeStatus_sunk (v : Word) : (s.writeStatus v).sunk = s.sunk := by
  unfold State.writeStatus; split <;> rfl
@[simp] theorem State.writeStatus_reads (v : Word) : (s.writeStatus v).reads = s.reads := by
  unfold State.writeStatus; split <;> rfl
@[simp] theorem State.writeStatus_busywr (v : Word) :
    (s.writeStatus v).busywr = (s.busywr && !v.getLsbD 8) := by
  unfold State.writeStatus; split <;> simp_all

/-! ### pollStep -/

@[simp] theorem pollStep_fs : (pollStep s).fs = s.fs := by
  unfold pollStep; split <;> rfl
@[simp] theorem pollStep_hlen : (pollStep s).hlen = s.hlen := by
  unfold pollStep; split <;> rfl
@[simp] theorem pollStep_hbuf : (pollStep s).hbuf = s.hbuf := by
  unfold pollStep; split <;> rfl
@[simp] theorem pollStep_cmd : (pollStep s).cmd = s.cmd := by
  unfold pollStep; split <;> rfl
@[simp] theorem pollStep_done : (pollStep s).done = s.done := by
  unfold pollStep; split <;> rfl
@[simp] theorem pollStep_err : (pollStep s).err = s.err := by
  unfold pollStep; split <;> rfl
@[simp] theorem pollStep_busywr : (pollStep s).busywr = s.busywr := by
  unfold pollStep; split <;> rfl
@[simp] theorem pollStep_einfo : (pollStep s).einfo = s.einfo := by
  unfold pollStep; split <;> rfl
@[simp] theorem pollStep_cap : (pollStep s).cap = s.cap := by
  unfold pollStep; split <;> rfl
@[simp] theorem pollStep_phase : (pollStep s).phase = s.phase := by
  unfold pollStep; split <;> rfl
@[simp] theorem pollStep_tpc : (pollStep s).tpc = s.tpc := by
  unfold pollStep; split <;> rfl
@[simp] theorem pollStep_outReady : (pollStep s).outReady = s.outReady := by
  unfold pollStep; split <;> rfl
@[simp] theorem pollStep_sunk : (pollStep s).sunk = s.sunk := by
  unfold pollStep; split <;> rfl
@[simp] theorem pollStep_reads : (pollStep s).reads = s.reads ++ [s.statusWord] := by
  unfold pollStep; split <;> rfl
@[simp] theorem pollStep_inputs :
    (pollStep s).inputs = if s.busy then .turn :: .wait :: s.inputs else s.inputs := by
  unfold pollStep; split <;> rfl

/-! ### takeMove -/

@[simp] theorem takeMove_fs : (takeMove s).2.fs = s.fs := by
  unfold takeMove; split <;> rfl
@[simp] theorem takeMove_hlen : (takeMove s).2.hlen = s.hlen := by
  unfold takeMove; split <;> rfl
@[simp] theorem takeMove_hbuf : (takeMove s).2.hbuf = s.hbuf := by
  unfold takeMove; split <;> rfl
@[simp] theorem takeMove_cmd : (takeMove s).2.cmd = s.cmd := by
  unfold takeMove; split <;> rfl
@[simp] theorem takeMove_done : (takeMove s).2.done = s.done := by
  unfold takeMove; split <;> rfl
@[simp] theorem takeMove_err : (takeMove s).2.err = s.err := by
  unfold takeMove; split <;> rfl
@[simp] theorem takeMove_busywr : (takeMove s).2.busywr = s.busywr := by
  unfold takeMove; split <;> rfl
@[simp] theorem takeMove_einfo : (takeMove s).2.einfo = s.einfo := by
  unfold takeMove; split <;> rfl
@[simp] theorem takeMove_cap : (takeMove s).2.cap = s.cap := by
  unfold takeMove; split <;> rfl
@[simp] theorem takeMove_phase : (takeMove s).2.phase = s.phase := by
  unfold takeMove; split <;> rfl
@[simp] theorem takeMove_tpc : (takeMove s).2.tpc = s.tpc := by
  unfold takeMove; split <;> rfl
@[simp] theorem takeMove_outReady : (takeMove s).2.outReady = s.outReady := by
  unfold takeMove; split <;> rfl
@[simp] theorem takeMove_sunk : (takeMove s).2.sunk = s.sunk := by
  unfold takeMove; split <;> rfl
@[simp] theorem takeMove_reads : (takeMove s).2.reads = s.reads := by
  unfold takeMove; split <;> rfl
@[simp] theorem takeMove_inputs : (takeMove s).2.inputs = s.inputs.tail := by
  unfold takeMove; split <;> simp_all

/-! ### Derived bits -/

theorem State.hmax_eq_of_cap {s t : State} (h : t.cap = s.cap) : t.hmax = s.hmax := by
  simp [State.hmax, h]
theorem State.busy_iff : s.busy = true ↔ s.phase ≠ .idle := by simp [State.busy]
theorem State.not_busy_iff : s.busy = false ↔ s.phase = .idle := by simp [State.busy]

/-- The header cells depend on `HLEN` and `HBUF` alone (R67). -/
theorem State.headerCells_congr {s t : State} (hl : t.hlen = s.hlen) (hb : t.hbuf = s.hbuf) :
    t.headerCells = s.headerCells := by
  simp [State.headerCells, hl, hb]

end Sys2Proof.Machine
end

