-- ==== Sys2Proof/Laws/Tokens.lean ====
section
/-! SUPPORT. The serializer and the segment function: recursion, lengths and the shape of a three-burst segment. -/

namespace Sys2Proof.Machine

@[simp] theorem bits_length (b : Byte) : (bits b).length = 8 := rfl

@[simp] theorem encodeBits_nil (r : Word) (bp : Bool) : encodeBits [] r bp = [] := rfl

@[simp] theorem encodeBits_cons (b : Byte) (rest : List Byte) (r : Word) (bp : Bool) :
    encodeBits (b :: rest) r bp = (bits b).map (fun x => tone x r bp) ++ encodeBits rest r bp := rfl

theorem encodeBits_append (l₁ l₂ : List Byte) (r : Word) (bp : Bool) :
    encodeBits (l₁ ++ l₂) r bp = encodeBits l₁ r bp ++ encodeBits l₂ r bp := by
  induction l₁ with
  | nil => rfl
  | cons b rest ih => simp only [List.cons_append, encodeBits_cons, ih, List.append_assoc]

theorem encodeBits_mem {t : Token} {l : List Byte} {r : Word} {bp : Bool} (h : t ∈ encodeBits l r bp) :
    ∃ b, t = tone b r bp := by
  induction l with
  | nil => cases h
  | cons b rest ih =>
    rcases List.mem_append.1 h with h | h
    · obtain ⟨x, -, rfl⟩ := List.mem_map.1 h; exact ⟨x, rfl⟩
    · exact ih h

@[simp] theorem tokenMs_tone (b : Bool) (r : Word) (bp : Bool) : tokenMs (tone b r bp) = consts.bitMs := by
  cases b <;> rfl

@[simp] theorem tone_isTone (b : Bool) (r : Word) (bp : Bool) : (tone b r bp).isTone = true := by cases b <;> rfl

/-- A silent mode has no segment (R160). -/
theorem segment_npas (k : SegmentKind) (hdr : List Byte) (fs : Word) (bp : Bool) : frameSegment k .npas hdr fs bp = [] := rfl

theorem segment_wea (k : SegmentKind) (hdr : List Byte) (fs : Word) (bp : Bool) : frameSegment k .wea hdr fs bp = [] := rfl

/-- A sounding mode has three bursts (R161). -/
theorem modeRow_bursts {m : Mode} (h₁ : m ≠ .npas) (h₂ : m ≠ .wea) : (modeRow m).bursts = 3 := by
  cases m <;> first | rfl | contradiction

/-- R160: `B(0) ++ G(0) ++ B(1) ++ G(1) ++ B(2) ++ G(2)`. -/
theorem segment_sounding (k : SegmentKind) {m : Mode} (hdr : List Byte) (fs : Word) (bp : Bool) (h₁ : m ≠ .npas)
    (h₂ : m ≠ .wea) :
    frameSegment k m hdr fs bp =
      encodeBits (burstBytes k m hdr 0) (toneRate m fs) bp ++ gap k m 0 fs bp
        ++ (encodeBits (burstBytes k m hdr 1) (toneRate m fs) bp ++ gap k m 1 fs bp)
        ++ (encodeBits (burstBytes k m hdr 2) (toneRate m fs) bp ++ gap k m 2 fs bp) := by
  have hr : List.range (modeRow m).bursts = [0, 1, 2] := by rw [modeRow_bursts h₁ h₂]; rfl
  simp [frameSegment, hr]

end Sys2Proof.Machine
end

