-- ==== Sys2Proof/Laws/Ops.lean ====
section
/-! SUPPORT. For each shared operation, once, everything it can do; and for exec, which of the two shapes of command an
instruction has. -/

namespace Sys2Proof.Machine

open Host (Outcome)

/-! ### The header -/

theorem leastBadIndex_none {l : List Word} : leastBadIndex l = none ↔ ∀ v ∈ l, v.toNat ≤ 255 := by
  induction l with
  | nil => simp [leastBadIndex]
  | cons v rest ih =>
    by_cases h : 255 < v.toNat
    · simp [leastBadIndex, aboveByte, h]
    · simp [leastBadIndex, aboveByte, h, ih]; omega

/-- R264: the least index of a cell above 255. -/
theorem leastBadIndex_some {l : List Word} {k : Nat} :
    leastBadIndex l = some k ↔
      ∃ h : k < l.length, 255 < (l[k]).toNat ∧ ∀ j, (h' : j < k) → (l[j]).toNat ≤ 255 := by
  induction l generalizing k with
  | nil => simp [leastBadIndex]
  | cons v rest ih =>
    by_cases h : 255 < v.toNat
    · simp only [leastBadIndex, aboveByte, h, decide_true, if_true, Option.some.injEq]
      constructor
      · rintro rfl
        exact ⟨by simp, h, fun j hj => absurd hj (by omega)⟩
      · rintro ⟨_, _, hj⟩
        by_contra hk
        have h0 : v.toNat ≤ 255 := hj 0 (by omega)
        omega
    · simp only [leastBadIndex, aboveByte, h, decide_false, Bool.false_eq_true, if_false, Option.map_eq_some_iff]
      constructor
      · rintro ⟨k', hk', rfl⟩
        obtain ⟨hl, hb, hj⟩ := ih.1 hk'
        refine ⟨by simpa using hl, hb, fun j hj' => ?_⟩
        cases j with
        | zero => exact Nat.le_of_not_lt h
        | succ j => exact hj j (by omega)
      · rintro ⟨hl, hb, hj⟩
        cases k with
        | zero => exact absurd hb h
        | succ k =>
          exact ⟨k, ih.2 ⟨by simpa using hl, hb, fun j hj' => hj (j + 1) (by omega)⟩, rfl⟩

/-- R25: a byte held as a code point is framed as itself. -/
@[simp] theorem cellByte_setWidth (b : Byte) : cellByte (b.setWidth 32) = b := by
  apply BitVec.eq_of_toNat_eq
  simp [cellByte]
  omega

@[simp] theorem map_cellByte_setWidth (hdr : List Byte) : (hdr.map (BitVec.setWidth 32)).map cellByte = hdr := by
  induction hdr with
  | nil => rfl
  | cons b rest ih => simp only [List.map_cons, cellByte_setWidth, ih]

theorem leastBadIndex_bytes (hdr : List Byte) : leastBadIndex (hdr.map (BitVec.setWidth 32)) = none := by
  rw [leastBadIndex_none]
  intro v hv
  obtain ⟨b, -, rfl⟩ := List.mem_map.1 hv
  have := b.isLt
  simp
  omega

theorem HeaderIs.length {s : State} {hdr : List Byte} (h : HeaderIs s hdr) : hdr.length = s.hlen.toNat := by
  simpa using (Memory.readRange_some.1 h.2).1

/-- R24 and R25, for states with the same `HLEN`, `HBUF` and `CAP`. -/
theorem HeaderIs.congr {s t : State} {hdr : List Byte} (h : HeaderIs s hdr) (hl : t.hlen = s.hlen)
    (hb : t.hbuf = s.hbuf) (hc : t.cap = s.cap) : HeaderIs t hdr := by
  refine ⟨?_, ?_⟩
  · rw [hl, State.hmax_eq_of_cap hc]; exact h.1
  · rw [State.headerCells_congr hl hb]; exact h.2

/-! ### The sequencer -/

/-- R38, R39: the transfer step waits, advances, completes, or has no token to offer. -/
theorem transfer_cases (toks : List Token) (s : State) :
    (s.outReady = false ∧ transfer toks s = .next s)
    ∨ (s.outReady = true ∧ toks[s.tpc.toNat]? = none ∧ transfer toks s = .fault .tokenIndexPastEnd)
    ∨ (∃ t, s.outReady = true ∧ toks[s.tpc.toNat]? = some t ∧ s.tpc.toNat + 1 = toks.length
        ∧ transfer toks s = .next (s.complete t))
    ∨ (∃ t, s.outReady = true ∧ toks[s.tpc.toNat]? = some t ∧ s.tpc.toNat + 1 ≠ toks.length
        ∧ transfer toks s = .next (s.advance t)) := by
  unfold transfer
  split
  · rename_i hr
    split
    · rename_i hn; exact .inr (.inl ⟨hr, hn, rfl⟩)
    · rename_i t ht
      split
      · rename_i hl; exact .inr (.inr (.inl ⟨t, hr, ht, hl, rfl⟩))
      · rename_i hl; exact .inr (.inr (.inr ⟨t, hr, ht, hl, rfl⟩))
  · rename_i hr; exact .inl ⟨by simpa using hr, rfl⟩

/-- R37: what the checks of a header command decide. -/
theorem checkHeader_cases (s : State) :
    (s.hmax < s.hlen.toNat ∧ checkHeader s = .next (s.raise .lengthError s.hlen))
    ∨ (s.hlen.toNat ≤ s.hmax ∧ s.headerCells = none ∧ checkHeader s = .fault .headerCellUnwritten)
    ∨ (∃ cells i, s.hlen.toNat ≤ s.hmax ∧ s.headerCells = some cells ∧ leastBadIndex cells = some i
        ∧ checkHeader s = .next (s.raise .encodingError (BitVec.ofNat 32 i)))
    ∨ (∃ cells, s.hlen.toNat ≤ s.hmax ∧ s.headerCells = some cells ∧ leastBadIndex cells = none
        ∧ checkHeader s = .next s.enterRun) := by
  unfold checkHeader
  split
  · rename_i h; exact .inl ⟨h, rfl⟩
  · rename_i h
    have hle : s.hlen.toNat ≤ s.hmax := Nat.le_of_not_lt h
    split
    · rename_i hn; exact .inr (.inl ⟨hle, hn, rfl⟩)
    · rename_i cells hc
      split
      · rename_i i hi; exact .inr (.inr (.inl ⟨cells, i, hle, hc, hi, rfl⟩))
      · rename_i hi; exact .inr (.inr (.inr ⟨cells, hle, hc, hi, rfl⟩))

theorem checkHeader_of_header {s : State} {hdr : List Byte} (h : HeaderIs s hdr) :
    checkHeader s = .next s.enterRun := by
  unfold checkHeader
  rw [if_neg (Nat.not_lt.2 h.1), h.2]
  simp only [leastBadIndex_bytes]

theorem plainCommand_idle {w : Word} {body : Word → List Token} {bp : Bool} {s : State} (h : s.phase = .idle) :
    plainCommand w body bp s = .next (s.accept w) := by simp [plainCommand, h]

theorem plainCommand_check {w : Word} {body : Word → List Token} {bp : Bool} {s : State} (h : s.phase = .check) :
    plainCommand w body bp s = .next s.enterRun := by simp [plainCommand, h]

theorem plainCommand_run {w : Word} {body : Word → List Token} {bp : Bool} {s : State} (h : s.phase = .run) :
    plainCommand w body bp s = transfer (body s.fs ++ [.fin s.fs bp]) s := by simp [plainCommand, h]

theorem headerCommand_idle {w : Word} {body : List Byte → Word → List Token} {bp : Bool} {s : State}
    (h : s.phase = .idle) : headerCommand w body bp s = .next (s.accept w) := by simp [headerCommand, h]

theorem headerCommand_check {w : Word} {body : List Byte → Word → List Token} {bp : Bool} {s : State}
    (h : s.phase = .check) : headerCommand w body bp s = checkHeader s := by simp [headerCommand, h]

theorem headerCommand_run {w : Word} {body : List Byte → Word → List Token} {bp : Bool} {s : State}
    {cells : List Word} (h : s.phase = .run) (hc : s.headerCells = some cells) :
    headerCommand w body bp s = transfer (body (cells.map cellByte) s.fs ++ [.fin s.fs bp]) s := by
  simp [headerCommand, h, hc]

theorem headerCommand_run_none {w : Word} {body : List Byte → Word → List Token} {bp : Bool} {s : State}
    (h : s.phase = .run) (hc : s.headerCells = none) :
    headerCommand w body bp s = .fault .headerCellUnwritten := by
  simp [headerCommand, h, hc]

/-- A `Body()` that is `transfer`red with its `END`: each body token advances, `END` completes (R39). -/
theorem transfer_body {body : List Token} {e : Token} {s : State} (hr : s.outReady = true) :
    (∀ t, body[s.tpc.toNat]? = some t → transfer (body ++ [e]) s = .next (s.advance t))
    ∧ (s.tpc.toNat = body.length → transfer (body ++ [e]) s = .next (s.complete e)) := by
  constructor
  · intro t ht
    have hlt : s.tpc.toNat < body.length := (List.getElem?_eq_some_iff.1 ht).1
    simp only [transfer, hr, if_true, List.getElem?_append_left hlt, ht, List.length_append, List.length_singleton]
    rw [if_neg (by omega)]
  · intro hl
    simp [transfer, hr, hl]

/-- What a command that reads no header performs, once for all of them. -/
theorem performs_plain {i : Instr} {w : Word} {body : Word → List Token} {bp : Bool} (s : State)
    (h : exec i s = plainCommand w body bp s) : Performs i s (body s.fs) bp := by
  refine ⟨fun hp => ?_, fun hp hr t ht => ?_, fun hp hr hl => ?_⟩
  · rw [h, plainCommand_check hp]; rfl
  · rw [h, plainCommand_run hp, (transfer_body hr).1 t ht]; rfl
  · rw [h, plainCommand_run hp, (transfer_body hr).2 hl]; rfl

/-- What a header command performs on a loaded header, once for all of them. -/
theorem performs_header {i : Instr} {w : Word} {body : List Byte → Word → List Token} {bp : Bool} {s : State}
    {hdr : List Byte} (h : exec i s = headerCommand w body bp s) (hh : HeaderIs s hdr) :
    Performs i s (body hdr s.fs) bp := by
  refine ⟨fun hp => ?_, fun hp hr t ht => ?_, fun hp hr hl => ?_⟩
  · rw [h, headerCommand_check hp, checkHeader_of_header hh]; rfl
  · rw [h, headerCommand_run hp hh.2, map_cellByte_setWidth, (transfer_body hr).1 t ht]; rfl
  · rw [h, headerCommand_run hp hh.2, map_cellByte_setWidth, (transfer_body hr).2 hl]; rfl

/-! ### exec, once for all instructions -/

/-- A command that reads no header is a `plainCommand` under its own word, and `Tokens()` is its body and `END`. -/
theorem exec_plain {i : Instr} (h : readsHeader i = false) :
    ∃ body bp, (∀ s, exec i s = plainCommand (encode i) body bp s)
      ∧ ∀ s, tokensOf i s = some (body s.fs ++ [.fin s.fs bp]) := by
  cases i <;> first
    | (simp [readsHeader] at h; done)
    | exact ⟨_, _, fun _ => rfl, fun _ => rfl⟩

/-- A command that reads the header is a `headerCommand` under its own word, and so are its tokens. -/
theorem exec_header {i : Instr} (h : readsHeader i = true) :
    ∃ body bp, (∀ s, exec i s = headerCommand (encode i) body bp s)
      ∧ ∀ s, tokensOf i s = s.headerCells.map fun cells => body (cells.map cellByte) s.fs ++ [.fin s.fs bp] := by
  cases i <;> first
    | (simp [readsHeader] at h; done)
    | exact ⟨_, _, fun _ => rfl, fun _ => rfl⟩

theorem exec_idle {i : Instr} {s : State} (h : s.phase = .idle) : exec i s = .next (s.accept (encode i)) := by
  cases hh : readsHeader i with
  | false => obtain ⟨_, _, he, -⟩ := exec_plain hh; rw [he, plainCommand_idle h]
  | true => obtain ⟨_, _, he, -⟩ := exec_header hh; rw [he, headerCommand_idle h]

/-- In `CHECK` a command that reads no header enters `RUN`; one that does is checked. -/
theorem exec_check {i : Instr} {s : State} (h : s.phase = .check) :
    exec i s = if readsHeader i then checkHeader s else .next s.enterRun := by
  cases hh : readsHeader i with
  | false => obtain ⟨_, _, he, -⟩ := exec_plain hh; simp [he, plainCommand_check h]
  | true => obtain ⟨_, _, he, -⟩ := exec_header hh; simp [he, headerCommand_check h]

/-- In `RUN` an instruction transfers from its token list (R39). -/
theorem exec_run {i : Instr} {s : State} {toks : List Token} (h : s.phase = .run) (ht : tokensOf i s = some toks) :
    exec i s = transfer toks s := by
  cases hh : readsHeader i with
  | false =>
    obtain ⟨_, _, he, hk⟩ := exec_plain hh
    rw [hk, Option.some.injEq] at ht
    rw [he, plainCommand_run h, ht]
  | true =>
    obtain ⟨_, _, he, hk⟩ := exec_header hh
    rw [hk] at ht
    obtain ⟨cells, hc, rfl⟩ := Option.map_eq_some_iff.1 ht
    rw [he, headerCommand_run h hc]

theorem exec_run_none {i : Instr} {s : State} (h : s.phase = .run) (ht : tokensOf i s = none) :
    readsHeader i = true ∧ s.headerCells = none ∧ exec i s = .fault .headerCellUnwritten := by
  cases hh : readsHeader i with
  | false => obtain ⟨_, _, -, hk⟩ := exec_plain hh; rw [hk] at ht; cases ht
  | true =>
    obtain ⟨_, _, he, hk⟩ := exec_header hh
    rw [hk] at ht
    have hc : s.headerCells = none := Option.map_eq_none_iff.1 ht
    exact ⟨rfl, hc, by rw [he, headerCommand_run_none h hc]⟩

/-- Every token list ends with the command's one `END` (R100). -/
theorem tokensOf_ne_nil {i : Instr} {s : State} {toks : List Token} (ht : tokensOf i s = some toks) : toks ≠ [] := by
  cases hh : readsHeader i with
  | false => obtain ⟨_, _, -, hk⟩ := exec_plain hh; rw [hk, Option.some.injEq] at ht; rw [← ht]; simp
  | true =>
    obtain ⟨_, _, -, hk⟩ := exec_header hh
    rw [hk] at ht
    obtain ⟨cells, -, rfl⟩ := Option.map_eq_some_iff.1 ht
    simp

/-- The token list depends on `FS`, `HLEN` and `HBUF` alone (R100). -/
theorem tokensOf_congr {i : Instr} {s t : State} (hf : t.fs = s.fs) (hl : t.hlen = s.hlen) (hb : t.hbuf = s.hbuf) :
    tokensOf i t = tokensOf i s := by
  cases hh : readsHeader i with
  | false => obtain ⟨_, _, -, hk⟩ := exec_plain hh; rw [hk, hk, hf]
  | true => obtain ⟨_, _, -, hk⟩ := exec_header hh; rw [hk, hk, hf, State.headerCells_congr hl hb]

/-! ### The host -/

/-- R63: every host write, by its target. -/
theorem hostWrite_cases (a : HostAddr) (v : Word) (s : State) :
    (hostWrite a v s = s)
    ∨ (s.phase ≠ .idle ∧ hostWrite a v s = s.dropWrite)
    ∨ (hostWrite a v s = s.writeStatus v)
    ∨ (a = 0 ∧ s.phase = .idle ∧ hostWrite a v s = s.accept v)
    ∨ (s.phase = .idle ∧ hostWrite a v s = s.setFs v)
    ∨ (s.phase = .idle ∧ hostWrite a v s = s.setHlen v)
    ∨ (∃ i, i < s.hmax ∧ s.phase = .idle ∧ hostWrite a v s = s.setCell i v) := by
  have hcmd : target s.hmax a = .cmd → a = 0 := by
    intro h
    unfold target at h
    split at h <;> try simp at h
    · rename_i h0; exact BitVec.eq_of_toNat_eq (by simpa using h0)
    · split at h <;> simp at h
  have hcell : ∀ i, target s.hmax a = .cell i → i < s.hmax := by
    intro i h
    unfold target at h
    split at h <;> try simp at h
    split at h
    · rename_i hc; simp at h; omega
    · simp at h
  cases hb : s.busy with
  | true =>
    have hp := State.busy_iff s |>.1 hb
    unfold hostWrite
    cases ht : target s.hmax a <;> simp [hb, hp]
  | false =>
    have hp := State.not_busy_iff s |>.1 hb
    unfold hostWrite
    cases ht : target s.hmax a <;> simp [hb, hp]
    · exact .inr (.inr (.inl (hcmd ht)))
    · exact .inr (.inr (.inr (.inr (.inr ⟨_, hcell _ ht, rfl⟩))))

/-! ### The step -/

theorem step_nil {s : State} (h : s.inputs = []) : step s = sequencerTurn s := by
  simp [step, takeMove, h, agentStep]

theorem step_cons {s : State} {x : Input} {rest : List Input} (h : s.inputs = x :: rest) :
    step s = agentStep x { s with inputs := rest } := by
  simp [step, takeMove, h]

/-- At a turn of the sequencer, scheduled or taken because no move is left, the step is that turn. -/
theorem step_turn {s : State} {rest : List Input} (h : s.inputs = .turn :: rest ∨ (s.inputs = [] ∧ rest = [])) :
    step s = sequencerTurn { s with inputs := rest } := by
  rcases h with h | ⟨h, rfl⟩
  · exact step_cons h
  · cases s
    subst h
    rfl

theorem turn_next {s : State} (h : s.inputs.head?.getD .turn = .turn) :
    s.inputs = .turn :: s.inputs.tail ∨ (s.inputs = [] ∧ s.inputs.tail = []) := by
  cases hi : s.inputs with
  | nil => exact .inr ⟨rfl, rfl⟩
  | cons x rest => rw [hi] at h; exact .inl (by simpa using h)

theorem sequencerTurn_idle {s : State} (h : s.phase = .idle) : sequencerTurn s = .next s := by
  simp [sequencerTurn, h]

theorem sequencerTurn_ok {s : State} {i : Instr} (h : s.phase ≠ .idle) (hd : decode s.cmd = .ok i) :
    sequencerTurn s = exec i s := by
  unfold sequencerTurn
  split
  · contradiction
  · rw [hd]

theorem sequencerTurn_rejected {s : State} {why : Reject} (h : s.phase ≠ .idle)
    (hd : decode s.cmd = .rejected why) : sequencerTurn s = illegalTurn s := by
  unfold sequencerTurn
  split
  · contradiction
  · rw [hd]

end Sys2Proof.Machine
end

