-- ==== Sys2Proof/Laws/PerInstr.lean ====
section
/-! SUPPORT. Per instruction: the word of a well-formed instruction selects its own row of the table
(spec/30_encoding.md R101). -/

namespace Sys2Proof.Laws.RowMatch

/-- R101: `w & mask = match` for the instruction's own word and row. -/
def Statement (i : Instr) : Prop :=
  i.wellFormed = true → encode i &&& rowMask i = rowMatch i

theorem mark : Statement .mark := by unfold Statement; decide
theorem space : Statement .space := by unfold Statement; decide
theorem enc : Statement .enc := by unfold Statement; decide
theorem hdrDefault (bp : Bool) : Statement (.hdrDefault bp) := by
  revert bp; unfold Statement; decide
theorem hdrSage (bp : Bool) : Statement (.hdrSage bp) := by
  revert bp; unfold Statement; decide
theorem hdrDigital (bp : Bool) : Statement (.hdrDigital bp) := by
  revert bp; unfold Statement; decide
theorem hdrTrilithic (bp : Bool) : Statement (.hdrTrilithic bp) := by
  revert bp; unfold Statement; decide
theorem hdrNws (bp : Bool) : Statement (.hdrNws bp) := by
  revert bp; unfold Statement; decide
theorem hdrBroadcaster (bp : Bool) : Statement (.hdrBroadcaster bp) := by
  revert bp; unfold Statement; decide
theorem hdrNpas (bp : Bool) : Statement (.hdrNpas bp) := by
  revert bp; unfold Statement; decide
theorem hdrWea (bp : Bool) : Statement (.hdrWea bp) := by
  revert bp; unfold Statement; decide
theorem hdrFallback (bp : Bool) (mode : BitVec 4) : Statement (.hdrFallback bp mode) := by
  revert bp mode; unfold Statement; decide
theorem eomDefault (bp : Bool) : Statement (.eomDefault bp) := by
  revert bp; unfold Statement; decide
theorem eomSage (bp : Bool) : Statement (.eomSage bp) := by
  revert bp; unfold Statement; decide
theorem eomDigital (bp : Bool) : Statement (.eomDigital bp) := by
  revert bp; unfold Statement; decide
theorem eomTrilithic (bp : Bool) : Statement (.eomTrilithic bp) := by
  revert bp; unfold Statement; decide
theorem eomNws (bp : Bool) : Statement (.eomNws bp) := by
  revert bp; unfold Statement; decide
theorem eomBroadcaster (bp : Bool) : Statement (.eomBroadcaster bp) := by
  revert bp; unfold Statement; decide
theorem eomNpas (bp : Bool) : Statement (.eomNpas bp) := by
  revert bp; unfold Statement; decide
theorem eomWea (bp : Bool) : Statement (.eomWea bp) := by
  revert bp; unfold Statement; decide
theorem eomFallback (bp : Bool) (mode : BitVec 4) : Statement (.eomFallback bp mode) := by
  revert bp mode; unfold Statement; decide

end Sys2Proof.Laws.RowMatch
end

