-- ==== Sys2Proof/Laws/Run.lean ====
section
/-! SUPPORT. Runs of several steps: one step more, runs end to end, and that they are the host's runs of the core. -/

namespace Sys2Proof.Machine

@[simp] theorem runFor_zero (s : State) : runFor 0 s = .next s := rfl

theorem runFor_succ {s t : State} (n : Nat) (h : step s = .next t) : runFor (n + 1) s = runFor n t := by
  simp only [runFor, h]

/-- A run that answers a next state can be continued. -/
theorem runFor_add {s t : State} {n : Nat} (m : Nat) (h : runFor n s = .next t) : runFor (n + m) s = runFor m t := by
  induction n generalizing s with
  | zero => cases h; simp
  | succ n ih =>
    rw [Nat.add_right_comm]
    simp only [runFor] at h ⊢
    split at h
    · rename_i u hu; exact ih h
    · cases h
    · cases h

/-- An undisturbed run: neither its first step nor those after it disturb. -/
theorem undisturbedFor_succ {s t : State} {n : Nat} (hu : undisturbedFor (n + 1) s = true) (h : step s = .next t) :
    disturbs s = false ∧ undisturbedFor n t = true := by
  simpa [undisturbedFor, h] using hu

/-- What a run of the host's does first. -/
theorem core_run_succ (M : Host.Core) (n : Nat) (s : M.State) :
    (∀ t, M.step s = .next t → M.run (n + 1) s = M.run n t)
    ∧ (∀ f, M.step s = .fault f → M.run (n + 1) s = .fault f)
    ∧ (∀ r, M.step s = .refused r → M.run (n + 1) s = .refused r) := by
  refine ⟨fun t h => ?_, fun f h => ?_, fun r h => ?_⟩ <;> simp only [Host.Core.run, h]

theorem runFor_eq_core_run (n : Nat) (s : State) : runFor n s = Host.Core.run Sys2Proof.core n s := by
  induction n generalizing s with
  | zero => rfl
  | succ n ih =>
    obtain ⟨hn, hf, hr⟩ := core_run_succ Sys2Proof.core n s
    cases h : step s with
    | next t => rw [runFor_succ n h, ih]; exact (hn t h).symm
    | fault f => simp only [runFor, h]; exact (hf f h).symm
    | refused r => simp only [runFor, h]; exact (hr r h).symm

end Sys2Proof.Machine
end

