-- ==== Sys2Proof/Tests/Slice0.lean ====
section
/-! SUPPORT. Tests: the well-formedness smoke, the encodings of spec/30_encoding.md R101 written out bit by bit, single
steps with the results of spec/95_test_vectors.md, and for each obligation with hypotheses states that meet them. -/

namespace Sys2Proof.Tests

open Sys2Proof Sys2Proof.Machine

/-! ### Helpers -/

/-- "ZCZC-TEST" (spec/95_test_vectors.md, conventions). -/
def header9 : List Byte := [0x5A, 0x43, 0x5A, 0x43, 0x2D, 0x54, 0x45, 0x53, 0x54]

/-- The reset state with these cells written from cell 0 on and `HLEN` their number. -/
def withCells (cells : List Word) : State :=
  { State.reset with
    hlen := BitVec.ofNat 32 cells.length, hbuf := (List.range cells.length).zip cells }

/-- The reset state with a header of bytes loaded. -/
def loaded (hdr : List Byte) : State := withCells (hdr.map (BitVec.setWidth 32))

/-- A word accepted, the check step next. -/
def checking (w : Word) (s : State) : State := { s with cmd := w, phase := .check }

/-- An instruction in `RUN` at a token index. -/
def running (i : Instr) (tpc : Word) (s : State) : State := { s with cmd := encode i, phase := .run, tpc := tpc }

/-- A schedule put before a state. -/
def given (moves : List Input) (s : State) : State := { s with inputs := moves }

def nextOf : Host.Outcome State Fault Refusal → Option State
  | .next t => some t
  | .fault _ => none
  | .refused _ => none

def faultOf : Host.Outcome State Fault Refusal → Option Fault
  | .next _ => none
  | .fault f => some f
  | .refused _ => none

theorem eq_next {o : Host.Outcome State Fault Refusal} {t : State} (h : nextOf o = some t) : o = .next t := by
  cases o <;> simp_all [nextOf]

theorem eq_fault {o : Host.Outcome State Fault Refusal} {f : Fault} (h : faultOf o = some f) : o = .fault f := by
  cases o <;> simp_all [faultOf]

/-- The word a step sent, and the phase and `DONE` after it. -/
def sent (o : Host.Outcome State Fault Refusal) : Option (List TokenWord × Phase × Bool) :=
  (nextOf o).map fun t => (t.sunk, t.phase, t.done)

/-- What an instruction sends in `RUN` at a token index, with a header loaded. -/
def sentAt (i : Instr) (tpc : Word) (hdr : List Byte) : Option (List TokenWord × Phase × Bool) :=
  sent (exec i (running i tpc (loaded hdr)))

/-- `ERR`, `EINFO`, `PHASE` after a step. -/
def ended (o : Host.Outcome State Fault Refusal) : Option (BitVec 4 × Word × Phase) :=
  (nextOf o).map fun t => (t.err, t.einfo, t.phase)

/-! ### Well-formedness: an ill-formed term for each check (R94, R174, R199) -/

theorem test_wellFormed_refuses_hdrFallback : (Instr.hdrFallback true 7).wellFormed = false := by decide
theorem test_wellFormed_refuses_eomFallback : (Instr.eomFallback false 0).wellFormed = false := by decide
theorem test_wellFormed_accepts_fallback_ends :
    (Instr.hdrFallback true 8).wellFormed = true ∧ (Instr.eomFallback false 15).wellFormed = true := by decide

/-! ### Decoding: words written out from R91 and R101, `{RSV 31:9, BP 8, MODE 7:4, OP 3:0}` -/

theorem test_decode_mark :
    decode 0b00000000000000000000000000000001 = .ok .mark := by decide
theorem test_decode_space :
    decode 0b00000000000000000000000000000010 = .ok .space := by decide
theorem test_decode_enc :
    decode 0b00000000000000000000000000000011 = .ok .enc := by decide
theorem test_decode_hdrDefault :
    decode 0b00000000000000000000000000000100 = .ok (.hdrDefault false) := by decide
theorem test_decode_hdrSage :
    decode 0b00000000000000000000000100010100 = .ok (.hdrSage true) := by decide
theorem test_decode_hdrDigital :
    decode 0b00000000000000000000000000100100 = .ok (.hdrDigital false) := by decide
theorem test_decode_hdrTrilithic :
    decode 0b00000000000000000000000100110100 = .ok (.hdrTrilithic true) := by decide
theorem test_decode_hdrNws :
    decode 0b00000000000000000000000001000100 = .ok (.hdrNws false) := by decide
theorem test_decode_hdrBroadcaster :
    decode 0b00000000000000000000000101010100 = .ok (.hdrBroadcaster true) := by decide
theorem test_decode_hdrNpas :
    decode 0b00000000000000000000000001100100 = .ok (.hdrNpas false) := by decide
theorem test_decode_hdrWea :
    decode 0b00000000000000000000000101110100 = .ok (.hdrWea true) := by decide
theorem test_decode_hdrFallback :
    decode 0b00000000000000000000000110110100 = .ok (.hdrFallback true 11) := by decide
theorem test_decode_eomDefault :
    decode 0b00000000000000000000000100000101 = .ok (.eomDefault true) := by decide
theorem test_decode_eomSage :
    decode 0b00000000000000000000000000010101 = .ok (.eomSage false) := by decide
theorem test_decode_eomDigital :
    decode 0b00000000000000000000000100100101 = .ok (.eomDigital true) := by decide
theorem test_decode_eomTrilithic :
    decode 0b00000000000000000000000000110101 = .ok (.eomTrilithic false) := by decide
theorem test_decode_eomNws :
    decode 0b00000000000000000000000101000101 = .ok (.eomNws true) := by decide
theorem test_decode_eomBroadcaster :
    decode 0b00000000000000000000000001010101 = .ok (.eomBroadcaster false) := by decide
theorem test_decode_eomNpas :
    decode 0b00000000000000000000000101100101 = .ok (.eomNpas true) := by decide
theorem test_decode_eomWea :
    decode 0b00000000000000000000000001110101 = .ok (.eomWea false) := by decide
theorem test_decode_eomFallback :
    decode 0b00000000000000000000000011110101 = .ok (.eomFallback false 15) := by decide

/-- R96, in its order: a reserved bit (V34d, V34e), `OP` 0 (V34), `OP` 6 to 15 (V34a), `MODE` (V34b), `BP` (V34c). -/
theorem test_decode_rejects_by_name :
    decode 0x00000204 = .rejected .reservedBits ∧ decode 0x80000005 = .rejected .reservedBits
    ∧ decode 0x00000000 = .rejected .opZero
    ∧ decode 0x00000006 = .rejected .opReserved ∧ decode 0x0000000F = .rejected .opReserved
    ∧ decode 0x00000011 = .rejected .modeWithoutMeaning ∧ decode 0x000000F3 = .rejected .modeWithoutMeaning
    ∧ decode 0x00000103 = .rejected .bandpassWithoutMeaning := by decide

theorem test_decodeTableWord :
    decodeTableWord 32 0x00000114 = some (.hdrSage true) ∧ decodeTableWord 16 0xF5 = some (.eomFallback false 15)
    ∧ decodeTableWord 32 0x00000204 = none := by decide

/-! ### The first instruction after reset -/

/-- V41: `MARK` issued at reset passes its check. -/
theorem test_withFetchWord_mark :
    (nextOf (step (State.reset.withFetchWord 32 1))).map State.phase = some .run := by decide

/-- V41: so does a header command, with `HLEN` = 0; a schedule that was there waits. -/
theorem test_withFetchWord_hdr :
    (nextOf (step ((given [.reset] State.reset).withFetchWord 32 0x184))).map (fun t => (t.phase, t.inputs))
      = some (.run, [.reset]) := by decide

/-! ### Each instruction in `RUN`: a telling token, and `END` at the index the vectors give -/

/-- V10: `M`, then `E`. -/
theorem test_mark_sends :
    sentAt .mark 0 [] = some ([0x00005DC000000001], .run, false)
    ∧ sentAt .mark 1 [] = some ([0x00005DC000000003], .idle, true) := by decide

/-- V11: `S`, then `E`. -/
theorem test_space_sends :
    sentAt .space 0 [] = some ([0x00005DC000000000], .run, false)
    ∧ sentAt .space 1 [] = some ([0x00005DC000000003], .idle, true) := by decide

/-- V12: 0x41 is `10000010`, least significant bit first, so token 6 is `M`; `E` at 8. -/
theorem test_enc_sends :
    sentAt .enc 6 [0x41] = some ([0x00005DC000000001], .run, false)
    ∧ sentAt .enc 8 [0x41] = some ([0x00005DC000000003], .idle, true) := by decide

/-- V15: `SIL1000` at 200; `E` at 602. -/
theorem test_hdrDefault_sends :
    sentAt (.hdrDefault false) 200 header9 = some ([0x00005DC003E80002], .run, false)
    ∧ sentAt (.hdrDefault false) 602 header9 = some ([0x00005DC000000003], .idle, true) := by decide +kernel

/-- V17: tokens 200 to 207 are the suffix 0xFF; `E` at 626. -/
theorem test_hdrSage_sends :
    sentAt (.hdrSage false) 200 header9 = some ([0x00005DC000000001], .run, false)
    ∧ sentAt (.hdrSage false) 626 header9 = some ([0x00005DC000000003], .idle, true) := by decide +kernel

/-- V18: burst 0 begins with eight `S`, with `BP` = 1 bit 2 is set; `E` at 683. -/
theorem test_hdrDigital_sends :
    sentAt (.hdrDigital true) 7 header9 = some ([0x00005DC000000004], .run, false)
    ∧ sentAt (.hdrDigital true) 683 header9 = some ([0x00005DC000000007], .idle, true) := by decide +kernel

/-- V19: `SIL150` at 602; `E` at 603. -/
theorem test_hdrTrilithic_sends :
    sentAt (.hdrTrilithic false) 602 header9 = some ([0x00005DC000960002], .run, false)
    ∧ sentAt (.hdrTrilithic false) 603 header9 = some ([0x00005DC000000003], .idle, true) := by decide +kernel

/-- V20: the burst ends with two 0x00 bytes, so token 215 is `S`; `E` at 650. -/
theorem test_hdrNws_sends :
    sentAt (.hdrNws false) 215 header9 = some ([0x00005DC000000000], .run, false)
    ∧ sentAt (.hdrNws false) 650 header9 = some ([0x00005DC000000003], .idle, true) := by decide +kernel

/-- V21: tones carry 44100; `E` at 674 carries `FS`. -/
theorem test_hdrBroadcaster_sends :
    sentAt (.hdrBroadcaster false) 0 header9 = some ([0x0000AC4400000001], .run, false)
    ∧ sentAt (.hdrBroadcaster false) 674 header9 = some ([0x00005DC000000003], .idle, true) := by decide +kernel

/-- V22: `E` alone. -/
theorem test_hdrNpas_sends : sentAt (.hdrNpas false) 0 header9 = some ([0x00005DC000000003], .idle, true) := by decide

/-- V23: `E` alone. -/
theorem test_hdrWea_sends : sentAt (.hdrWea true) 0 header9 = some ([0x00005DC000000007], .idle, true) := by decide

/-- V24: word 0xF4 sends the tokens of V15. -/
theorem test_hdrFallback_sends :
    sentAt (.hdrFallback false 15) 401 header9 = some ([0x00005DC003E80002], .run, false)
    ∧ sentAt (.hdrFallback false 15) 602 header9 = some ([0x00005DC000000003], .idle, true) := by decide +kernel

/-- V25: "N" is `01110010`, so token 130 is `M`; `E` at 482. -/
theorem test_eomDefault_sends :
    sentAt (.eomDefault false) 130 [] = some ([0x00005DC000000001], .run, false)
    ∧ sentAt (.eomDefault false) 482 [] = some ([0x00005DC000000003], .idle, true) := by decide +kernel

/-- V26: `SIL1000` at 168, with `BP` = 1; `E` at 506. -/
theorem test_eomSage_sends :
    sentAt (.eomSage true) 168 [] = some ([0x00005DC003E80006], .run, false)
    ∧ sentAt (.eomSage true) 506 [] = some ([0x00005DC000000007], .idle, true) := by decide +kernel

/-- V27: `SIL1000` at 562; `E` at 563. -/
theorem test_eomDigital_sends :
    sentAt (.eomDigital false) 562 [] = some ([0x00005DC003E80002], .run, false)
    ∧ sentAt (.eomDigital false) 563 [] = some ([0x00005DC000000003], .idle, true) := by decide +kernel

/-- V28: `SIL850` at 321; `E` at 482, no pad. -/
theorem test_eomTrilithic_sends :
    sentAt (.eomTrilithic false) 321 [] = some ([0x00005DC003520002], .run, false)
    ∧ sentAt (.eomTrilithic false) 482 [] = some ([0x00005DC000000003], .idle, true) := by decide +kernel

/-- V29: `SIL1000` at 353; `E` at 530. -/
theorem test_eomNws_sends :
    sentAt (.eomNws false) 353 [] = some ([0x00005DC003E80002], .run, false)
    ∧ sentAt (.eomNws false) 530 [] = some ([0x00005DC000000003], .idle, true) := by decide +kernel

/-- V30: tones carry 44100; `E` at 554 carries `FS`. -/
theorem test_eomBroadcaster_sends :
    sentAt (.eomBroadcaster false) 8 [] = some ([0x0000AC4400000001], .run, false)
    ∧ sentAt (.eomBroadcaster false) 554 [] = some ([0x00005DC000000003], .idle, true) := by decide +kernel

/-- V31: `E` alone. -/
theorem test_eomNpas_sends : sentAt (.eomNpas true) 0 [] = some ([0x00005DC000000007], .idle, true) := by decide

/-- V32: `E` alone. -/
theorem test_eomWea_sends : sentAt (.eomWea false) 0 [] = some ([0x00005DC000000003], .idle, true) := by decide

/-- V33: word 0x85 sends the tokens of V25. -/
theorem test_eomFallback_sends :
    sentAt (.eomFallback false 8) 160 [] = some ([0x00005DC003E80002], .run, false)
    ∧ sentAt (.eomFallback false 8) 482 [] = some ([0x00005DC000000003], .idle, true) := by decide +kernel

/-! ### The check step: every clause at the ends of its range -/

/-- V34 to V34e. -/
theorem test_check_illegal :
    ended (step (checking 0x00000000 State.reset)) = some (1, 0x00000000, .idle)
    ∧ ended (step (checking 0x80000005 State.reset)) = some (1, 0x80000005, .idle) := by decide

/-- V37, V37a: illegal before length, length before encoding. -/
theorem test_check_order :
    ended (step (checking 0x13 { withCells [0x100] with hlen := 1025 })) = some (1, 0x13, .idle)
    ∧ ended (step (checking 0x04 { withCells [0x100] with hlen := 1025 })) = some (2, 0x401, .idle) := by
  decide

/-- V35b, V35c: `HLEN` far above `HMAX`, for a command that reads it and one that does not. -/
theorem test_check_length :
    ended (step (checking 0x03 { State.reset with hlen := 0xFFFFFFFF })) = some (2, 0xFFFFFFFF, .idle)
    ∧ ended (step (checking 0x05 { State.reset with hlen := 1025 })) = some (0, 0, .run) := by decide

/-- V36a, V36b, V36c, V14a: the least bad index, a bad cell at `HLEN`, no truncation, and 255 is a byte. -/
theorem test_check_encoding :
    ended (step (checking 0x14 (withCells [0x41, 0x100, 0x2603]))) = some (3, 1, .idle)
    ∧ ended (step (checking 0x04 { withCells [0x41, 0x100] with hlen := 1 })) = some (0, 0, .run)
    ∧ ended (step (checking 0x04 (withCells [0xFFFFFFFF]))) = some (3, 0, .idle)
    ∧ ended (step (checking 0x03 (withCells [0xFF]))) = some (0, 0, .run) := by decide

/-- V35a, on an instance with two cells: `HLEN` = `HMAX` is legal, one more is not. -/
theorem test_check_full :
    ended (step (checking 0x03 { withCells [1, 2] with cap := 2 })) = some (0, 0, .run)
    ∧ ended (step (checking 0x03 { withCells [1, 2, 3] with cap := 2 })) = some (2, 3, .idle) := by decide

/-- 93 U6: an unwritten cell below `HLEN`. -/
theorem test_check_unwritten :
    faultOf (step (checking 0x03 { State.reset with hlen := 1 })) = some .headerCellUnwritten
    ∧ faultOf (step (checking 0x64 { withCells [0x41] with hlen := 2 })) = some .headerCellUnwritten := by
  decide

/-! ### The host, the sink and reset -/

/-- V39: a write while busy is dropped and witnessed; `STATUS` reads 0x101. -/
theorem test_write_dropped :
    (nextOf (step (given [.write 2 8000] (running .mark 0 State.reset)))).map (fun t => (t.fs, t.statusWord))
      = some (24000, 0x101) := by decide

/-- V39: bit 8 written as 1 clears `BUSYWR`; 0xFFFFFEFF changes nothing. -/
theorem test_write_status :
    (nextOf (step (given [.write 1 0x100] { State.reset with busywr := true, done := true }))).map State.statusWord
      = some 0x002
    ∧ (nextOf (step (given [.write 1 0xFFFFFEFF] { State.reset with busywr := true, done := true }))).map
        State.statusWord = some 0x102 := by decide

/-- V40: writes that do nothing, at the ends of the reserved ranges. -/
theorem test_write_reserved :
    nextOf (step (given [.write 4 7] State.reset)) = some State.reset
    ∧ nextOf (step (given [.write 5 5] State.reset)) = some State.reset
    ∧ nextOf (step (given [.write 6 0xDEADBEEF] State.reset)) = some State.reset
    ∧ nextOf (step (given [.write 0x0FFFF 1] State.reset)) = some State.reset
    ∧ nextOf (step (given [.write 0x10400 1] State.reset)) = some State.reset
    ∧ nextOf (step (given [.write 0x1FFFF 1] State.reset)) = some State.reset := by decide

/-- R61: the first and the last cell. -/
theorem test_write_cells :
    nextOf (step (given [.write 0x10000 0x41] State.reset)) = some { State.reset with hbuf := [(0, 0x41)] }
    ∧ nextOf (step (given [.write 0x103FF 0x41] (withCells [5])))
        = some { withCells [5] with hbuf := [(0, 5), (1023, 0x41)] } := by decide

/-- What one read answers. -/
def answerOf (a : HostAddr) (s : State) : Option (List Word) :=
  (nextOf (step (given [.read a] s))).map State.reads

/-- V40, V41: reads at reset and at the ends of the reserved ranges. -/
theorem test_reads :
    answerOf 0 State.reset = some [0] ∧ answerOf 1 State.reset = some [0]
    ∧ answerOf 2 State.reset = some [0x5DC0] ∧ answerOf 3 State.reset = some [0]
    ∧ answerOf 4 State.reset = some [0] ∧ answerOf 5 State.reset = some [0x400]
    ∧ answerOf 6 State.reset = some [0] ∧ answerOf 0x0FFFF State.reset = some [0]
    ∧ answerOf 0x10400 State.reset = some [0] ∧ answerOf 0x1FFFF State.reset = some [0]
    ∧ answerOf 0x10001 (withCells [7, 9]) = some [9] ∧ answerOf 0x103FF (withCells [7]) = none := by decide

/-- R62: `STATUS` with every field set that can be at once. -/
theorem test_statusWord :
    State.statusWord { State.reset with busywr := true, err := 3 } = 0x130
    ∧ (checking 1 State.reset).statusWord = 0x001 := by decide

/-- V43: a stalled `MARK` keeps offering `M`. -/
theorem test_stall :
    (nextOf (step { running .mark 0 State.reset with outReady := false })).map
        (fun t => (t.outData, t.tpc, t.sunk, t.statusWord))
      = some (some 0x00005DC000000001, 0, [], 0x001) := by decide

/-- V42: reset in mid-stream sends nothing and clears the outcome. -/
theorem test_reset_midstream :
    (nextOf (step (given [.reset] { running (.eomDefault false) 100 (loaded [1]) with busywr := true }))).map
        (fun t => (t.sunk, t.statusWord, t.hbuf, t.phase)) = some ([], 0, [], .idle) := by decide

/-- R103: a poll of a busy block and of an idle one. -/
theorem test_wait :
    (nextOf (step (given [.wait] (checking 1 State.reset)))).map (fun t => (t.inputs, t.reads))
      = some ([.turn, .wait], [0x001])
    ∧ (nextOf (step (given [.wait, .reset] State.reset))).map (fun t => (t.inputs, t.reads))
      = some ([.reset], [0x000]) := by decide

/-! ### States and operands that meet the hypotheses of the obligations

Named by the obligation. Where a statement has several clauses, each has its states here, at the ends of its range. -/

theorem witness_DecodeOfEncode : (Instr.hdrFallback true 8).wellFormed = true := by decide

theorem witness_EncodeOfDecode : decode 0x1F5 = .ok (.eomFallback true 15) := by decide

/-- A word of a row, and one that selects no row. -/
theorem witness_RowsSelectByMaskAndMatch :
    decode 0x1F4 = .ok (.hdrFallback true 15) ∧ (0x1F4 : Word) &&& rowMask (.hdrFallback true 15) = rowMatch (.hdrFallback false 8)
    ∧ ∀ i, (0x006 : Word) &&& rowMask i ≠ rowMatch i := by
  refine ⟨by decide, by decide, fun i => ?_⟩
  cases i <;> simp only [rowMask, rowMatch] <;> decide

/-- The last position of two bytes. -/
theorem witness_EncodeBitsByPosition : 15 < 8 * [(0x41 : Byte), 0x80].length := by decide

theorem witness_SegmentSizeAndDuration : Mode.digital ≠ .npas ∧ Mode.digital ≠ .wea := by decide

/-- A tone and a silence of a segment. -/
theorem witness_SegmentTokenValues :
    Token.mark 44100 true ∈ frameSegment .eom .broadcaster [] 24000 true
    ∧ Token.sil 850 24000 false ∈ frameSegment .eom .trilithic [] 24000 false :=
  ⟨List.mem_of_getElem? (i := 0) (by decide +kernel), List.mem_of_getElem? (i := 160) (by decide +kernel)⟩

/-! A loaded header, for the hypothesis of EncSends, HdrDefaultSends, HdrSageSends, HdrDigitalSends, HdrTrilithicSends,
HdrNwsSends, HdrBroadcasterSends and HdrSilentModesSend: a command in `CHECK` and in `RUN`; no byte, nine bytes, and as
many bytes as there are cells. The clauses of `Performs` follow. -/

theorem witness_header_checking : HeaderIs (checking 0x14 (loaded header9)) header9 := by
  unfold HeaderIs; decide
theorem witness_header_running : HeaderIs (running (.hdrSage false) 626 (loaded header9)) header9 := by
  unfold HeaderIs; decide
theorem witness_header_empty : HeaderIs (running .enc 0 (loaded [])) [] := by
  unfold HeaderIs; decide
theorem witness_header_full : HeaderIs { checking 0x04 (loaded [0x00, 0xFF]) with cap := 2 } [0x00, 0xFF] := by
  unfold HeaderIs; decide

theorem witness_EncSends : HeaderIs (running .enc 7 (loaded [0x41])) [0x41]
    ∧ (running .enc 7 (loaded [0x41])).outReady = true
    ∧ (encodeBits [0x41] 24000 false)[7]? = some (.space 24000 false) := by
  unfold HeaderIs; decide

/-- The clauses of `Performs` for a command with a body: its check, its first and last body token, its `END`. -/
theorem witness_MarkAndSpaceSend :
    (checking 1 State.reset).phase = .check
    ∧ (running .mark 0 State.reset).phase = .run ∧ (running .mark 0 State.reset).outReady = true
    ∧ [Token.mark 24000 false][(running .mark 0 State.reset).tpc.toNat]? = some (.mark 24000 false)
    ∧ (running .mark 1 State.reset).tpc.toNat = [Token.mark 24000 false].length := by decide

/-- The same clauses for a segment: token 625 is the last of `HDR.SAGE`'s body, 626 is its length (V17). -/
theorem witness_HdrSageSends :
    ((bodyHdrSage false header9 24000)[(running (.hdrSage false) 625 (loaded header9)).tpc.toNat]?
      = some (.mark 24000 false))
    ∧ (running (.hdrSage false) 626 (loaded header9)).tpc.toNat = (bodyHdrSage false header9 24000).length := by
  decide +kernel

theorem witness_HdrFallbackSends :
    HeaderIs (running (.hdrFallback true 8) 0 (loaded header9)) header9 ∧ 8 ≤ (8 : BitVec 4).toNat
    ∧ 8 ≤ (15 : BitVec 4).toNat := by
  unfold HeaderIs; decide

theorem witness_EomFallbackSends : 8 ≤ (8 : BitVec 4).toNat ∧ 8 ≤ (15 : BitVec 4).toNat := by decide

/-- The turn scheduled, and no move left. -/
theorem witness_StepRunsTheDecodedInstruction :
    (running .mark 0 State.reset).phase ≠ .idle ∧ decode (running .mark 0 State.reset).cmd = .ok .mark
    ∧ (running .mark 0 State.reset).inputs = []
    ∧ (given [.turn] (checking 0x65 State.reset)).inputs = [.turn]
    ∧ decode (given [.turn] (checking 0x65 State.reset)).cmd = .ok (.eomNpas false) := by decide

theorem witness_IssueIsAcceptance :
    (given [.write 0 0x184] State.reset).phase = .idle
    ∧ (given [.write 0 0x184] State.reset).inputs = [.write 0 (encode (.hdrFallback true 8))] := by decide

theorem witness_AcceptanceEffect :
    (given [.write 0 0xFFFFFFFF] State.reset).phase = .idle
    ∧ (given [.write 0 0xFFFFFFFF] State.reset).inputs = [.write 0 0xFFFFFFFF] := by decide

/-- Every clause: an illegal word; a command without header; `HLEN` one above `HMAX`; the least bad cell at 0 and
behind a 255; no bad cell with `HLEN` = `HMAX`; an unwritten cell. -/
theorem witness_CheckStepDecides :
    (checking 0x204 State.reset).phase = .check ∧ (checking 0x204 State.reset).inputs = []
    ∧ decode (checking 0x204 State.reset).cmd = .rejected .reservedBits
    ∧ (given [.turn, .wait] (checking 0x204 State.reset)).inputs = .turn :: [.wait]
    ∧ decode (checking 0x1F5 State.reset).cmd = .ok (.eomFallback true 15) ∧ readsHeader (.eomFallback true 15) = false
    ∧ decode (checking 3 State.reset).cmd = .ok .enc ∧ readsHeader .enc = true
    ∧ { checking 3 State.reset with hlen := 1025 }.cap.toNat < { checking 3 State.reset with hlen := 1025 }.hlen.toNat
    ∧ (checking 3 (withCells [0x100])).headerCells = some [0x100]
    ∧ (checking 3 (withCells [0xFF, 0x100])).headerCells = some [0xFF, 0x100]
    ∧ { checking 3 (withCells [0xFF]) with cap := 1 }.hlen.toNat ≤ { checking 3 (withCells [0xFF]) with cap := 1 }.cap.toNat
    ∧ { checking 3 (withCells [0xFF]) with cap := 1 }.headerCells = some [0xFF]
    ∧ Memory.read { checking 3 State.reset with hlen := 1 }.hbuf 0 = none := by decide

/-- A token that is not the last, and the last; no move left, and a scheduled turn. -/
theorem witness_TransferStepDelivers :
    (running .mark 0 State.reset).phase = .run ∧ (running .mark 0 State.reset).inputs = []
    ∧ (given [.turn, .wait] (running .mark 0 State.reset)).inputs = .turn :: [.wait]
    ∧ (running .mark 0 State.reset).outReady = true
    ∧ (running .mark 0 State.reset).tokens = some [.mark 24000 false, .fin 24000 false]
    ∧ [Token.mark 24000 false, .fin 24000 false][(running .mark 0 State.reset).tpc.toNat]? = some (.mark 24000 false)
    ∧ (running .mark 1 State.reset).tokens = some [.mark 24000 false, .fin 24000 false]
    ∧ [Token.mark 24000 false, .fin 24000 false][(running .mark 1 State.reset).tpc.toNat]?
        = some (.fin 24000 false) := by decide

/-- A stalled `RUN`, and `IDLE`; a scheduled turn, and no move left. -/
theorem witness_StallHoldsTheToken :
    (given [.turn] { running .mark 0 State.reset with outReady := false }).inputs = [.turn]
    ∧ (given [.turn] { running .mark 0 State.reset with outReady := false }).phase = .run
    ∧ (given [.turn] { running .mark 0 State.reset with outReady := false }).outReady = false
    ∧ (given [.turn] { running .mark 0 State.reset with outReady := false }).tokens.isSome = true
    ∧ { running .mark 0 State.reset with outReady := false }.inputs = []
    ∧ (given [.turn] State.reset).inputs = [.turn] ∧ (given [.turn] State.reset).phase = .idle := by decide

theorem witness_PortOffersWhatIsTransferred :
    State.reset.phase ≠ .run ∧ (running .mark 1 State.reset).phase = .run ∧ (running .mark 1 State.reset).outReady = true
    ∧ (running .mark 1 State.reset).inputs.head?.getD .turn = .turn ∧ ∃ t, step (running .mark 1 State.reset) = .next t := by
  refine ⟨by decide, by decide, by decide, by decide, { State.reset with cmd := 1, done := true, sunk := [0x00005DC000000003] }, ?_⟩
  exact eq_next (by decide)

/-- The clauses of the cells and of the reserved addresses at their ends, for `HMAX` = 1024. -/
theorem witness_HostWriteEffects :
    (given [.write 0x10000 1] State.reset).inputs = [.write 0x10000 1]
    ∧ 0 < State.reset.cap.toNat ∧ (0x10000 : HostAddr).toNat = 0x10000 + 0
    ∧ 1023 < State.reset.cap.toNat ∧ (0x103FF : HostAddr).toNat = 0x10000 + 1023
    ∧ (4 ≤ (4 : HostAddr).toNat ∧ (4 : HostAddr).toNat < 0x10000) ∧ (0x0FFFF : HostAddr).toNat < 0x10000
    ∧ State.reset.cap.toNat ≤ (0x10400 : HostAddr).toNat - 0x10000
    ∧ State.reset.cap.toNat ≤ (0x1FFFF : HostAddr).toNat - 0x10000 := by decide

/-- The same for reads; a cell that is written and one that is not. -/
theorem witness_HostReadReturns :
    (given [.read 0x10000] (withCells [7])).inputs = [.read 0x10000]
    ∧ Memory.read (withCells [7]).hbuf 0 = some 7 ∧ Memory.read (withCells [7]).hbuf 1023 = none
    ∧ (6 ≤ (6 : HostAddr).toNat ∧ (6 : HostAddr).toNat < 0x10000)
    ∧ State.reset.cap.toNat ≤ (0x10400 : HostAddr).toNat - 0x10000 := by decide

theorem witness_CellReadsAsLastWritten : 0 ≠ 1 := by decide

theorem witness_CanonicalMemoriesAreEqual :
    Memory.wf [(0, 1), (5, 2)] = true
    ∧ Memory.wf (Memory.write [(5, 2)] 0 1) = true
    ∧ ∀ i, Memory.read [(0, 1), (5, 2)] i = Memory.read (Memory.write [(5, 2)] 0 1) i := by
  refine ⟨by decide, by decide, fun i => rfl⟩

theorem witness_ResetStrikeLeavesTheResetState :
    (given [.reset, .turn] (running (.eomDefault false) 100 (loaded [1]))).inputs = [.reset, .turn] := by decide

theorem witness_WaitPollsUntilIdle :
    (given [.wait] (checking 1 State.reset)).inputs = [.wait] ∧ (given [.wait] State.reset).inputs = [.wait] := by decide

/-- The invariant in `RUN` at a last token, in `CHECK`, and after an error. -/
theorem witness_invariant_run : StateInv (running .mark 1 State.reset) :=
  { memory := by decide, cells := by decide, capacity := by decide, codes := by decide, doneAlone := by decide
    errIdle := by decide, infoZero := by decide, tpcZero := by decide
    running := fun _ => ⟨.mark, [.mark 24000 false, .fin 24000 false], by decide, fun h => absurd h (by decide), by decide, by decide⟩ }

theorem witness_invariant_check : StateInv (checking 3 { State.reset with hlen := 1 }) :=
  { memory := by decide, cells := by decide, capacity := by decide, codes := by decide, doneAlone := by decide
    errIdle := by decide, infoZero := by decide, tpcZero := by decide
    running := fun h => absurd h (by decide) }

theorem witness_StepKeepsInvariant :
    StateInv (running .mark 1 State.reset) ∧ ∃ t, step (running .mark 1 State.reset) = .next t :=
  ⟨witness_invariant_run, witness_PortOffersWhatIsTransferred.2.2.2.2⟩

/-- Each of the two stops, from a state that meets the invariant. -/
theorem witness_OnlyUnwrittenCellsStop :
    (StateInv (checking 3 { State.reset with hlen := 1 })
      ∧ step (checking 3 { State.reset with hlen := 1 }) = .fault .headerCellUnwritten)
    ∧ step (given [.read 0x10000] State.reset) = .fault .hostReadUnwritten :=
  ⟨⟨witness_invariant_check, eq_fault (by decide)⟩, eq_fault (by decide)⟩

/-- A move of each kind that answers a next state. -/
theorem witness_StepsChangeOnlyTheirOwn :
    (∃ t, step (running .mark 0 State.reset) = .next t)
    ∧ (∃ t, step (given [.write 0 1] State.reset) = .next t)
    ∧ (∃ t, step (given [.write 2 8000] (running .mark 0 State.reset)) = .next t)
    ∧ (∃ t, step (given [.read 1] State.reset) = .next t)
    ∧ (∃ t, step (given [.ready false] State.reset) = .next t)
    ∧ ∃ t, step (given [.wait] State.reset) = .next t := by
  refine ⟨⟨(running .mark 0 State.reset).advance (.mark 24000 false), eq_next (by decide)⟩, ?_, ?_, ?_, ?_, ?_⟩ <;>
    exact ⟨_, rfl⟩

/-- A completing step and an acceptance. -/
theorem witness_ExactlyOneOutcomeFlag :
    (StateInv (running .mark 1 State.reset) ∧ outcomeCount (running .mark 1 State.reset) = 1
      ∧ (running .mark 1 State.reset).inputs.head? ≠ some .reset ∧ ∃ t, step (running .mark 1 State.reset) = .next t)
    ∧ (given [.write 0 6] State.reset).phase = .idle ∧ (given [.write 0 6] State.reset).inputs = [.write 0 6]
    ∧ ∃ t, step (given [.write 0 6] State.reset) = .next t :=
  ⟨⟨witness_invariant_run, by decide, by decide, witness_PortOffersWhatIsTransferred.2.2.2.2⟩, by decide, by decide, ⟨_, rfl⟩⟩

/-- A command with a header and one without. -/
theorem witness_CommandDeliversItsTokens :
    ((checking 3 (loaded [0x41])).phase = .check ∧ decode (checking 3 (loaded [0x41])).cmd = .ok .enc
      ∧ (checking 3 (loaded [0x41])).inputs = [] ∧ (checking 3 (loaded [0x41])).outReady = true
      ∧ (checking 3 (loaded [0x41])).hmax ≤ 65535 ∧ (∃ hdr, HeaderIs (checking 3 (loaded [0x41])) hdr)
      ∧ ∃ toks, tokensOf .enc (checking 3 (loaded [0x41])) = some toks)
    ∧ (readsHeader .mark = true → ∃ hdr, HeaderIs (checking 1 State.reset) hdr)
    ∧ ∃ toks, tokensOf .mark (checking 1 State.reset) = some toks := by
  refine ⟨⟨by decide, by decide, by decide, by decide, by decide, ⟨[0x41], ?_⟩, ⟨_, rfl⟩⟩,
    fun h => absurd h (by decide), ⟨_, rfl⟩⟩
  unfold HeaderIs; decide

/-- A schedule with a stall, a dropped write to `FS` and to `CMD`, a read of `FS` and a poll, under which `MARK`
completes. -/
def schedule : List Input :=
  [.ready false, .turn, .write 2 8000, .write 0 5, .read 2, .ready true, .wait]

theorem witness_StreamIsPrefixUntilResetOrNextCommand :
    (given schedule (running .mark 0 State.reset)).phase = .run ∧ (given schedule (running .mark 0 State.reset)).tpc = 0
    ∧ decode (given schedule (running .mark 0 State.reset)).cmd = .ok .mark
    ∧ (given schedule (running .mark 0 State.reset)).hmax ≤ 65535 ∧ readsHeader .mark = false
    ∧ (∃ toks, tokensOf .mark (given schedule (running .mark 0 State.reset)) = some toks)
    ∧ undisturbedFor 11 (given schedule (running .mark 0 State.reset)) = true
    ∧ ∃ t, runFor 11 (given schedule (running .mark 0 State.reset)) = .next t :=
  ⟨by decide, by decide, by decide, by decide, by decide, ⟨_, rfl⟩, by decide,
    { State.reset with cmd := 1, done := true, busywr := true, sunk := [0x00005DC000000001, 0x00005DC000000003],
                       reads := [24000, 0x101, 0x101, 0x102] }, eq_next (by decide)⟩

/-- Cells at and above `HLEN` differ. -/
theorem witness_TokensDependOnInputsAlone :
    (checking 3 (loaded [0x41])).hlen = (checking 3 { loaded [0x41, 0x42] with hlen := 1 }).hlen
    ∧ (∀ i, i < (checking 3 (loaded [0x41])).hlen.toNat →
        Memory.read { loaded [0x41, 0x42] with hlen := 1 }.hbuf i = Memory.read (loaded [0x41]).hbuf i)
    ∧ { loaded [0x41, 0x42] with hlen := 1 }.hbuf ≠ (loaded [0x41]).hbuf := by decide

theorem witness_HeaderlessCommandsIgnoreTheHeader :
    readsHeader .mark = false ∧ readsHeader (.eomSage true) = false
    ∧ ∃ t, exec (.eomSage true) (checking 0x115 { State.reset with hlen := 5000 }) = .next t :=
  ⟨rfl, rfl, ⟨_, rfl⟩⟩

/-- One code point, and as many as there are cells. -/
theorem witness_LoadHdrLoadsTheHeader :
    (given (loadHdr [0x41]) State.reset).phase = .idle ∧ Memory.wf (given (loadHdr [0x41]) State.reset).hbuf = true
    ∧ [(0x41 : Word)].length ≤ (given (loadHdr [0x41]) State.reset).hmax
    ∧ (given (loadHdr [0x41]) State.reset).hmax ≤ 65535
    ∧ [(0x41 : Word), 0x100].length ≤ (given (loadHdr [0x41, 0x100]) { State.reset with cap := 2 }).hmax
    ∧ (given (loadHdr [0x41]) State.reset).inputs = [.write 0x10000 0x41, .write 3 1] := by decide

theorem witness_GenHeaderScriptDelivers :
    (given (callGenHeader [0x41] 1 24000 false) State.reset).phase = .idle
    ∧ (given (callGenHeader [0x41] 1 24000 false) State.reset).outReady = true
    ∧ [(0x41 : Byte)].length ≤ (given (callGenHeader [0x41] 1 24000 false) State.reset).hmax
    ∧ (given (callGenHeader [0x41] 1 24000 false) State.reset).inputs
        = [.write 2 24000, .write 0x10000 0x41, .write 3 1, .write 0 0x14, .wait] := by decide

theorem witness_BandpassTagIsBitTwo :
    (∃ l, tokensOf (hdrInstr 8 true) (loaded header9) = some l)
    ∧ (∃ l, tokensOf (hdrInstr 8 false) (loaded header9) = some l)
    ∧ (∃ l, tokensOf (eomInstr 0 true) State.reset = some l) ∧ ∃ l, tokensOf (eomInstr 0 false) State.reset = some l :=
  ⟨⟨_, rfl⟩, ⟨_, rfl⟩, ⟨_, rfl⟩, ⟨_, rfl⟩⟩

/-- A code point above 255 behind one that is not, at the last index. -/
theorem witness_FailingScriptEndsAsExpected :
    (given (callEncodeBits [0xFF, 0x100] 24000) State.reset).phase = .idle
    ∧ [(0xFF : Word), 0x100].length ≤ (given (callEncodeBits [0xFF, 0x100] 24000) State.reset).hmax
    ∧ (given (callEncodeBits [0xFF, 0x100] 24000) State.reset).hmax ≤ 65535
    ∧ 1 < [(0xFF : Word), 0x100].length ∧ 255 < (0x100 : Word).toNat ∧ (0xFF : Word).toNat ≤ 255
    ∧ (given (callEncodeBits [0xFF, 0x100] 24000) State.reset).inputs
        = [.write 2 24000, .write 0x10000 0xFF, .write 0x10001 0x100, .write 3 2, .write 0 3, .wait] := by decide

/-- The three parts of a good end (R316): an expected error, an expected drop, a script whose host lines are done. -/
theorem test_endedWell :
    EndedWell ⟨[.encodingError], false⟩ { State.reset with err := 3 }
    ∧ ¬ EndedWell .nothing { State.reset with err := 3 }
    ∧ EndedWell ⟨[], true⟩ { State.reset with busywr := true, inputs := [.turn, .ready false] }
    ∧ ¬ Ended (given [.turn, .wait] State.reset) := by
  simp [EndedWell, Ended, Expectation.nothing, State.reset, given, Input.isScriptLine, errorCode]

/-- V2: at 24000 Hz a tone is 46 or 47 samples. -/
theorem test_samples : samplesLow 24000 = 46 ∧ samplesHigh 24000 = 47 := by decide +kernel

/-- R229 (V6), R230: the two-tone and the tone of NWS, as `genAttentionTone` gives them with no filter; two tones at -10 dB
each. -/
theorem test_attention_default :
    (attentionTone .default 24000).ms = 8000 ∧ (attentionTone .nws 24000).ms = 9000
    ∧ attentionTone .default 24000 =
        .overlay (.sine { hz := 853, ms := 8000, gainDb := -10, depth := 16, channels := 1, rate := 24000 })
          (.sine { hz := 960, ms := 8000, gainDb := -10, depth := 16, channels := 1, rate := 24000 }) := by
  refine ⟨?_, ?_, rfl⟩ <;> simp [attentionTone, twoTone, sine, Sound.ms]

end Sys2Proof.Tests
end

section
/-! SUPPORT. The header buffer as data: a cell reads as last written, and a canonical memory is determined by what its
cells read (spec/10_state.md R24, R42). -/

namespace Sys2Proof.Machine

@[simp] theorem Memory.read_write_same (m : Memory) (i : Nat) (v : Word) :
    Memory.read (Memory.write m i v) i = some v := by
  induction m with
  | nil => simp [Memory.write, Memory.read]
  | cons c rest ih =>
    obtain ⟨j, u⟩ := c
    simp only [Memory.write]
    split
    · simp [Memory.read]
    · split
      · simp [Memory.read, *]
      · simp [Memory.read, *]

theorem Memory.read_write_other (m : Memory) {i j : Nat} (v : Word) (h : j ≠ i) :
    Memory.read (Memory.write m i v) j = Memory.read m j := by
  induction m with
  | nil => simp [Memory.write, Memory.read, h]
  | cons c rest ih =>
    obtain ⟨k, u⟩ := c
    simp only [Memory.write]
    split
    · simp [Memory.read, h]
    · split
      · rename_i hk; simp [Memory.read, ← hk, h]
      · simp [Memory.read, ih]

/-- An index below every listed one is unwritten. -/
theorem Memory.read_below {m : Memory} {i : Nat} (h : ∀ d ∈ m, i < d.1) : Memory.read m i = none := by
  induction m with
  | nil => rfl
  | cons c rest ih =>
    have hc : i < c.1 := h c List.mem_cons_self
    rw [Memory.read, if_neg (by omega), ih fun d hd => h d (List.mem_cons_of_mem c hd)]

/-- In a canonical memory the tail does not list the head's index. -/
theorem Memory.read_tail_head {c : Nat × Word} {rest : Memory} (h : Memory.wf (c :: rest) = true) :
    Memory.read rest c.1 = none :=
  Memory.read_below (Memory.wf_cons h).2

/-- The head index of a canonical memory is the least that reads a value. -/
theorem Memory.head_le_of_read {c : Nat × Word} {rest : Memory} {i : Nat} {v : Word}
    (h : Memory.wf (c :: rest) = true) (hr : Memory.read (c :: rest) i = some v) : c.1 ≤ i := by
  by_contra hlt
  have hnone : Memory.read (c :: rest) i = none := Memory.read_below fun d hd => by
    rcases List.mem_cons.1 hd with rfl | hd
    · omega
    · have := (Memory.wf_cons h).2 d hd; omega
  simp [hnone] at hr

theorem Memory.read_head (c : Nat × Word) (rest : Memory) : Memory.read (c :: rest) c.1 = some c.2 := by
  simp [Memory.read]

/-- Canonical memories that read alike have the same head. -/
theorem Memory.head_eq_of_read_eq {c d : Nat × Word} {l₁ l₂ : Memory} (h₁ : Memory.wf (c :: l₁) = true)
    (h₂ : Memory.wf (d :: l₂) = true) (h : ∀ i, Memory.read (c :: l₁) i = Memory.read (d :: l₂) i) : c = d := by
  have hcd : c.1 ≤ d.1 := Memory.head_le_of_read h₁ ((h d.1).trans (Memory.read_head d l₂))
  have hdc : d.1 ≤ c.1 := Memory.head_le_of_read h₂ ((h c.1).symm.trans (Memory.read_head c l₁))
  have hidx : c.1 = d.1 := Nat.le_antisymm hcd hdc
  have hval : some c.2 = some d.2 := by rw [← Memory.read_head c l₁, h, hidx, Memory.read_head]
  exact Prod.ext hidx (Option.some.inj hval)

/-- Canonical memories with the same head that read alike have tails that read alike. -/
theorem Memory.tail_read_eq {c : Nat × Word} {l₁ l₂ : Memory} (h₁ : Memory.wf (c :: l₁) = true)
    (h₂ : Memory.wf (c :: l₂) = true) (h : ∀ i, Memory.read (c :: l₁) i = Memory.read (c :: l₂) i) (i : Nat) :
    Memory.read l₁ i = Memory.read l₂ i := by
  by_cases hi : i = c.1
  · rw [hi, Memory.read_tail_head h₁, Memory.read_tail_head h₂]
  · simpa [Memory.read, hi] using h i

theorem Memory.eq_of_read_eq {m₁ m₂ : Memory} (h₁ : Memory.wf m₁ = true) (h₂ : Memory.wf m₂ = true)
    (h : ∀ i, Memory.read m₁ i = Memory.read m₂ i) : m₁ = m₂ := by
  induction m₁ generalizing m₂ with
  | nil =>
    cases m₂ with
    | nil => rfl
    | cons d l₂ => have := (h d.1).trans (Memory.read_head d l₂); simp [Memory.read] at this
  | cons c l₁ ih =>
    cases m₂ with
    | nil => have := (h c.1).symm.trans (Memory.read_head c l₁); simp [Memory.read] at this
    | cons d l₂ =>
      obtain rfl := Memory.head_eq_of_read_eq h₁ h₂ h
      rw [ih (Memory.wf_cons h₁).1 (Memory.wf_cons h₂).1 (Memory.tail_read_eq h₁ h₂ h)]

/-- Settles O39. -/
theorem cellReadsAsLastWritten : Obligations.CellReadsAsLastWritten :=
  fun m i v => ⟨Memory.read_write_same m i v, fun _ h => Memory.read_write_other m v h⟩

/-- Settles O40, by induction on the two lists: equal heads, then tails that read alike. -/
theorem canonicalMemoriesAreEqual : Obligations.CanonicalMemoriesAreEqual :=
  fun _ _ h₁ h₂ h => Memory.eq_of_read_eq h₁ h₂ h

end Sys2Proof.Machine
end

section
/-! SUPPORT. How long a token list can be: a header of at most `HMAX` cells keeps `TPC` from wrapping (R7, R30). -/

namespace Sys2Proof.Machine

@[simp] theorem encodeBits_length (l : List Byte) (r : Word) (bp : Bool) :
    (encodeBits l r bp).length = 8 * l.length := by
  induction l with
  | nil => rfl
  | cons b rest ih => simp [ih]; omega

theorem burstBytes_length_le (k : SegmentKind) (m : Mode) (hdr : List Byte) (n : Nat) :
    (burstBytes k m hdr n).length ≤ hdr.length + 24 := by
  have hlead : (if n = 0 then (modeRow m).lead else []).length ≤ 1 := by
    split
    · cases m <;> decide
    · simp
  have hpre : (modeRow m).preCnt = 16 := by cases m <;> rfl
  have hpay : (payload k hdr).length ≤ hdr.length + 4 := by cases k <;> simp [payload, consts]
  have hsuf : (modeRow m).suffix.length ≤ 3 := by cases m <;> decide
  simp only [burstBytes, List.length_append, List.length_replicate]
  omega

theorem gap_length_le (k : SegmentKind) (m : Mode) (n : Nat) (fs : Word) (bp : Bool) :
    (gap k m n fs bp).length ≤ 1 := by
  unfold gap
  split <;> simp

theorem frameSegment_length_le (k : SegmentKind) (m : Mode) (hdr : List Byte) (fs : Word) (bp : Bool) :
    (frameSegment k m hdr fs bp).length ≤ 24 * hdr.length + 579 := by
  by_cases hn : m = .npas
  · simp [hn, segment_npas]
  by_cases hw : m = .wea
  · simp [hw, segment_wea]
  have burst := burstBytes_length_le k m hdr
  have silence := fun n => gap_length_le k m n fs bp
  have := burst 0; have := burst 1; have := burst 2
  have := silence 0; have := silence 1; have := silence 2
  simp only [segment_sounding k hdr fs bp hn hw, List.length_append, encodeBits_length]
  omega

/-- A command that reads no header sends one bit tone or an end-of-message segment before `END`. -/
theorem tokensOf_plain {i : Instr} (h : readsHeader i = false) :
    (∃ b, ∀ s, tokensOf i s = some ([tone b s.fs false] ++ [.fin s.fs false]))
    ∨ ∃ m bp, ∀ s, tokensOf i s = some (frameSegment .eom m [] s.fs bp ++ [.fin s.fs bp]) := by
  cases i <;> simp only [readsHeader, reduceCtorEq] at h
  case mark => exact .inl ⟨true, fun _ => rfl⟩
  case space => exact .inl ⟨false, fun _ => rfl⟩
  all_goals exact .inr ⟨_, _, fun _ => rfl⟩

/-- A command that reads the header sends its bytes alone or in a header segment before `END`. -/
theorem tokensOf_header {i : Instr} (h : readsHeader i = true) :
    (∀ s, tokensOf i s = s.headerCells.map fun cells =>
      encodeBits (cells.map cellByte) s.fs false ++ [.fin s.fs false])
    ∨ ∃ m bp, ∀ s, tokensOf i s = s.headerCells.map fun cells =>
      frameSegment .hdr m (cells.map cellByte) s.fs bp ++ [.fin s.fs bp] := by
  cases i <;> simp only [readsHeader, Bool.false_eq_true] at h
  case enc => exact .inl fun _ => rfl
  all_goals exact .inr ⟨_, _, fun _ => rfl⟩

theorem tokensOf_length_of_plain {i : Instr} {s : State} {toks : List Token} (h : readsHeader i = false)
    (ht : tokensOf i s = some toks) : toks.length ≤ 580 := by
  rcases tokensOf_plain h with ⟨b, hk⟩ | ⟨m, bp, hk⟩
  · rw [hk, Option.some.injEq] at ht
    simp [← ht]
  · rw [hk, Option.some.injEq] at ht
    have := frameSegment_length_le .eom m [] s.fs bp
    simp only [← ht, List.length_append, List.length_singleton, List.length_nil] at this ⊢
    omega

theorem tokensOf_length_of_header {i : Instr} {s : State} {toks : List Token} (h : readsHeader i = true)
    (ht : tokensOf i s = some toks) : toks.length ≤ 24 * s.hlen.toNat + 580 := by
  rcases tokensOf_header h with hk | ⟨m, bp, hk⟩ <;> rw [hk] at ht <;>
    obtain ⟨cells, hc, rfl⟩ := Option.map_eq_some_iff.1 ht <;>
    have hl : cells.length = s.hlen.toNat := (Memory.readRange_some.1 hc).1
  · simp only [List.length_append, List.length_singleton, encodeBits_length, List.length_map]
    omega
  · have := frameSegment_length_le .hdr m (cells.map cellByte) s.fs bp
    simp only [List.length_append, List.length_singleton, List.length_map] at this ⊢
    omega

/-- R30: no index of a checked command's token list is past the 32 bits of `TPC`. -/
theorem tokensOf_length_lt {i : Instr} {s : State} {toks : List Token} (hcap : s.hmax ≤ 65535)
    (hh : readsHeader i = true → ∃ hdr, HeaderIs s hdr) (ht : tokensOf i s = some toks) :
    toks.length < 2 ^ 32 := by
  cases hr : readsHeader i with
  | false => have := tokensOf_length_of_plain hr ht; omega
  | true =>
    obtain ⟨hdr, hle, -⟩ := hh hr
    have := tokensOf_length_of_header hr ht
    omega

theorem tpc_succ {tpc : Word} {n : Nat} (h : tpc.toNat < n) (hn : n < 2 ^ 32) :
    (tpc + 1).toNat = tpc.toNat + 1 := by
  rw [BitVec.toNat_add]
  exact Nat.mod_eq_of_lt (show tpc.toNat + 1 < 2 ^ 32 by omega)

end Sys2Proof.Machine
end

section
/-! SUPPORT. What a step can do, said once: whose move it is, every outcome of the sequencer's turn, and what moves of the
surroundings keep (spec/10_state.md R31 to R42, spec/20_memory.md R62, R63). -/

namespace Sys2Proof.Machine

open Host (Outcome)

/-! ### The same block in other surroundings -/

theorem SameBlock.trans {s t u : State} (h : SameBlock s t) (h' : SameBlock t u) : SameBlock s u := by
  simp_all [SameBlock]

theorem sameBlock_takeMove (s : State) : SameBlock s (takeMove s).2 := by simp [SameBlock]

theorem sameBlock_setInputs (s : State) (rest : List Input) : SameBlock s { s with inputs := rest } := by
  simp [SameBlock]

theorem sameBlock_logRead (s : State) (v : Word) : SameBlock s (s.logRead v) := by simp [SameBlock]

theorem sameBlock_pollStep (s : State) : SameBlock s (pollStep s) := by simp [SameBlock]

theorem sameBlock_setReady (s : State) (level : Bool) : SameBlock s (s.setReady level) := by simp [SameBlock]

/-- The token list is a function of the block alone (R100). -/
theorem SameBlock.tokensOf_eq {s t : State} (h : SameBlock s t) (i : Instr) : tokensOf i t = tokensOf i s := by
  obtain ⟨hfs, hhlen, hhbuf, -⟩ := h
  exact tokensOf_congr hfs hhlen hhbuf

theorem State.tokens_eq_some {s : State} {toks : List Token} :
    s.tokens = some toks ↔ ∃ i, decode s.cmd = .ok i ∧ tokensOf i s = some toks := by
  unfold State.tokens
  cases decode s.cmd <;> simp

theorem SameBlock.tokens_eq {s t : State} (h : SameBlock s t) : t.tokens = s.tokens := by
  obtain ⟨-, -, -, hcmd, -⟩ := id h
  simp only [State.tokens, hcmd, h.tokensOf_eq]

theorem SameBlock.outValid_eq {s t : State} (h : SameBlock s t) : t.outValid = s.outValid := by
  obtain ⟨-, -, -, -, -, -, -, -, -, hphase, -⟩ := h
  simp only [State.outValid, hphase]

theorem SameBlock.outData_eq {s t : State} (h : SameBlock s t) : t.outData = s.outData := by
  obtain ⟨-, -, -, -, -, -, -, -, -, -, htpc⟩ := id h
  simp only [State.outData, h.outValid_eq, h.tokens_eq, htpc]

theorem State.outValid_iff {s : State} : s.outValid = true ↔ s.phase = .run := by simp [State.outValid]

/-- R34: in `RUN` the port offers the token at `TPC`. -/
theorem State.outData_run {s : State} {toks : List Token} (hp : s.phase = .run) (ht : s.tokens = some toks) :
    s.outData = toks[s.tpc.toNat]?.map Token.encode := by
  simp [State.outData, State.outValid_iff.2 hp, ht]

/-! ### Whose move a step is -/

theorem takeMove_fst (s : State) : (takeMove s).1 = s.inputs.head?.getD .turn := by
  unfold takeMove
  split <;> simp [*]

@[simp] theorem takeMove_hmax (s : State) : (takeMove s).2.hmax = s.hmax := State.hmax_eq_of_cap (takeMove_cap s)

/-- A step is the next move, made on the state from which it has been taken. -/
theorem step_move {s : State} {x : Input} (h : s.inputs.head?.getD .turn = x) :
    step s = agentStep x (takeMove s).2 := by
  rw [step, takeMove_fst, h]

/-- What cannot disturb a command's stream: no reset strike, and no write to `CMD` of an idle block. -/
theorem not_disturbs {s : State} (h : disturbs s = false) :
    (takeMove s).1 ≠ .reset ∧ ∀ a v, (takeMove s).1 = .write a v → a ≠ 0 ∨ s.phase ≠ .idle := by
  rw [takeMove_fst]
  unfold disturbs at h
  cases hx : s.inputs.head? with
  | none => simp
  | some x =>
    rw [hx] at h
    cases x with
    | write a v =>
      have : a = 0 → s.phase ≠ .idle := fun ha => s.busy_iff.1 (by simpa [ha] using h)
      simp only [Option.getD_some, ne_eq, reduceCtorEq, not_false_eq_true, Input.write.injEq, true_and]
      rintro _ _ ⟨rfl, -⟩
      exact or_iff_not_imp_left.2 fun ha => this (not_not.1 ha)
    | _ => simp_all

/-! ### The sequencer's turn -/

theorem transfer_stall {toks : List Token} {s : State} (hr : s.outReady = false) : transfer toks s = .next s := by
  simp [transfer, hr]

theorem transfer_last {toks : List Token} {s : State} {t : Token} (hr : s.outReady = true)
    (ht : toks[s.tpc.toNat]? = some t) (hl : s.tpc.toNat + 1 = toks.length) :
    transfer toks s = .next (s.complete t) := by
  simp [transfer, hr, ht, hl]

theorem transfer_middle {toks : List Token} {s : State} {t : Token} (hr : s.outReady = true)
    (ht : toks[s.tpc.toNat]? = some t) (hl : s.tpc.toNat + 1 ≠ toks.length) :
    transfer toks s = .next (s.advance t) := by
  simp [transfer, hr, ht, hl]

theorem sequencerTurn_run {s : State} {i : Instr} {toks : List Token} (hp : s.phase = .run)
    (hd : decode s.cmd = .ok i) (ht : tokensOf i s = some toks) : sequencerTurn s = transfer toks s := by
  rw [sequencerTurn_ok (by simp [hp]) hd, exec_run hp ht]

theorem sequencerTurn_illegal {s : State} {why : Reject} (hp : s.phase = .check)
    (hd : decode s.cmd = .rejected why) : sequencerTurn s = .next (s.raise .illegalCommand s.cmd) := by
  rw [sequencerTurn_rejected (by simp [hp]) hd]
  simp [illegalTurn, hp]

theorem sequencerTurn_check {s : State} {i : Instr} (hp : s.phase = .check) (hd : decode s.cmd = .ok i) :
    sequencerTurn s = if readsHeader i then checkHeader s else .next s.enterRun := by
  rw [sequencerTurn_ok (by simp [hp]) hd, exec_check hp]

/-- A command whose checks have passed: it needs no header or its header is loaded (R37). -/
def Checked (i : Instr) (s : State) : Prop := readsHeader i = true → ∃ hdr, HeaderIs s hdr

/-- A checked command has its token list (R100). -/
theorem Checked.tokensOf_isSome {i : Instr} {s : State} (h : Checked i s) : ∃ toks, tokensOf i s = some toks := by
  cases hr : readsHeader i with
  | false =>
    obtain ⟨body, bp, -, hk⟩ := exec_plain hr
    exact ⟨_, hk s⟩
  | true =>
    obtain ⟨body, bp, -, hk⟩ := exec_header hr
    obtain ⟨hdr, -, hc⟩ := h hr
    exact ⟨_, by rw [hk, hc, Option.map_some]⟩

/-- R37: a checked command enters `RUN`. -/
theorem sequencerTurn_checked {s : State} {i : Instr} (hp : s.phase = .check) (hd : decode s.cmd = .ok i)
    (hc : Checked i s) : sequencerTurn s = .next s.enterRun := by
  rw [sequencerTurn_check hp hd]
  split
  · rename_i hr
    obtain ⟨hdr, hh⟩ := hc hr
    exact checkHeader_of_header hh
  · rfl

theorem setWidth_cellByte {v : Word} (h : v.toNat ≤ 255) : (cellByte v).setWidth 32 = v := by
  apply BitVec.eq_of_toNat_eq
  simp [cellByte]
  omega

/-- R25, R264: where no cell below `HLEN` is above 255, the header of R304 is loaded. -/
theorem headerIs_of_cells {s : State} {cells : List Word} (hle : s.hlen.toNat ≤ s.hmax)
    (hc : s.headerCells = some cells) (hb : leastBadIndex cells = none) : HeaderIs s (cells.map cellByte) := by
  have hbytes : (cells.map cellByte).map (BitVec.setWidth 32) = cells := by
    rw [List.map_map]
    exact (List.map_congr_left fun v hv => setWidth_cellByte (leastBadIndex_none.1 hb v hv)).trans (List.map_id cells)
  exact ⟨hle, by rw [hbytes, hc]⟩

/-- Every outcome of the sequencer's turn, with what it depends on. -/
inductive TurnOutcome (s : State) : Outcome State Fault Refusal → Prop where
  | idle (hp : s.phase = .idle) : TurnOutcome s (.next s)
  /-- R37, R260: the check step raises an error. -/
  | error (e : BlockError) (info : Word) (hp : s.phase = .check) : TurnOutcome s (.next (s.raise e info))
  /-- Log 1. -/
  | unwritten {i : Instr} (hp : s.phase = .check) (hd : decode s.cmd = .ok i) (hr : readsHeader i = true)
      (hle : s.hlen.toNat ≤ s.hmax) (hc : s.headerCells = none) : TurnOutcome s (.fault .headerCellUnwritten)
  /-- R37: the checks pass. -/
  | passed {i : Instr} (hp : s.phase = .check) (hd : decode s.cmd = .ok i) (hc : Checked i s) :
      TurnOutcome s (.next s.enterRun)
  /-- R38. -/
  | stalled (hp : s.phase = .run) (hr : s.outReady = false) : TurnOutcome s (.next s)
  /-- R39, second branch. -/
  | advanced {i : Instr} {toks : List Token} {t : Token} (hp : s.phase = .run) (hd : decode s.cmd = .ok i)
      (hk : tokensOf i s = some toks) (hr : s.outReady = true)
      (ht : toks[s.tpc.toNat]? = some t) (hl : s.tpc.toNat + 1 ≠ toks.length) :
      TurnOutcome s (.next (s.advance t))
  /-- R39, first branch. -/
  | completed {i : Instr} {toks : List Token} {t : Token} (hp : s.phase = .run) (hd : decode s.cmd = .ok i)
      (hk : tokensOf i s = some toks) (hr : s.outReady = true)
      (ht : toks[s.tpc.toNat]? = some t) (hl : s.tpc.toNat + 1 = toks.length) :
      TurnOutcome s (.next (s.complete t))
  /-- Log 9: a state in `RUN` that no run reaches. -/
  | unreachable (f : Fault) (hp : s.phase = .run) (hn : ¬ RunReady s) : TurnOutcome s (.fault f)

/-- The two checks of a header command, as outcomes of the turn. -/
theorem turnOutcome_checkHeader {s : State} {i : Instr} (hp : s.phase = .check) (hd : decode s.cmd = .ok i)
    (hr : readsHeader i = true) : TurnOutcome s (checkHeader s) := by
  rcases checkHeader_cases s with ⟨-, h⟩ | ⟨hle, hc, h⟩ | ⟨_, _, -, -, -, h⟩ | ⟨cells, hle, hc, hb, h⟩ <;> rw [h]
  · exact .error _ _ hp
  · exact .unwritten hp hd hr hle hc
  · exact .error _ _ hp
  · exact .passed hp hd fun _ => ⟨_, headerIs_of_cells hle hc hb⟩

/-- The transfer step, as outcomes of the turn. -/
theorem turnOutcome_transfer {s : State} {i : Instr} {toks : List Token} (hp : s.phase = .run)
    (hd : decode s.cmd = .ok i) (hk : tokensOf i s = some toks) : TurnOutcome s (transfer toks s) := by
  rcases transfer_cases toks s with ⟨hr, h⟩ | ⟨-, hn, h⟩ | ⟨t, hr, ht, hl, h⟩ | ⟨t, hr, ht, hl, h⟩ <;> rw [h]
  · exact .stalled hp hr
  · refine .unreachable _ hp ?_
    rintro ⟨j, l, hj, -, hl, hlt⟩
    obtain rfl : i = j := by simpa [hd] using hj
    obtain rfl : toks = l := by simpa [hk] using hl
    simp at hn
    omega
  · exact .completed hp hd hk hr ht hl
  · exact .advanced hp hd hk hr ht hl

theorem sequencerTurn_outcome (s : State) : TurnOutcome s (sequencerTurn s) := by
  cases hp : s.phase with
  | idle => rw [sequencerTurn_idle hp]; exact .idle hp
  | check =>
    cases hd : decode s.cmd with
    | rejected why => rw [sequencerTurn_illegal hp hd]; exact .error _ _ hp
    | ok i =>
      rw [sequencerTurn_check hp hd]
      cases hr : readsHeader i with
      | true => exact turnOutcome_checkHeader hp hd hr
      | false => exact .passed hp hd fun h => absurd h (by simp [hr])
  | run =>
    cases hd : decode s.cmd with
    | rejected why =>
      rw [sequencerTurn_rejected (by simp [hp]) hd]
      simp only [illegalTurn, hp]
      exact .unreachable _ hp (by rintro ⟨j, -, hj, -⟩; simp [hd] at hj)
    | ok i =>
      cases hk : tokensOf i s with
      | some toks => rw [sequencerTurn_run hp hd hk]; exact turnOutcome_transfer hp hd hk
      | none =>
        obtain ⟨-, -, he⟩ := exec_run_none hp hk
        rw [sequencerTurn_ok (by simp [hp]) hd, he]
        refine .unreachable _ hp ?_
        rintro ⟨j, l, hj, -, hl, -⟩
        obtain rfl : i = j := by simpa [hd] using hj
        simp [hk] at hl

/-! ### The host's writes -/

theorem State.writeStatus_eq (s : State) (v : Word) :
    s.writeStatus v = { s with busywr := s.busywr && !v.getLsbD 8 } := by
  unfold State.writeStatus
  split
  · rename_i hv
    rw [hv, Bool.not_true, Bool.and_false]
  · rename_i hv
    rw [Bool.eq_false_of_not_eq_true hv, Bool.not_false, Bool.and_true]

/-- R41: while the block is busy a write changes `BUSYWR` at most. -/
theorem hostWrite_busy {s : State} (hp : s.phase ≠ .idle) (a : HostAddr) (v : Word) :
    ∃ b, hostWrite a v s = { s with busywr := b } := by
  rcases hostWrite_cases a v s with h | ⟨-, h⟩ | h | ⟨-, hi, -⟩ | ⟨hi, -⟩ | ⟨hi, -⟩ | ⟨_, -, hi, -⟩
  · exact ⟨s.busywr, h⟩
  · exact ⟨true, h⟩
  · exact ⟨_, h.trans (s.writeStatus_eq v)⟩
  all_goals exact absurd hi hp

/-- R36: in `IDLE` a write to `CMD` is accepted. -/
theorem hostWrite_cmd_idle {s : State} (hp : s.phase = .idle) (v : Word) : hostWrite 0 v s = s.accept v := by
  simp [hostWrite, target, State.busy, hp]

/-- R42: no host write sends a token or changes `CAP`. -/
theorem hostWrite_keeps (a : HostAddr) (v : Word) (s : State) :
    (hostWrite a v s).sunk = s.sunk ∧ (hostWrite a v s).cap = s.cap := by
  rcases hostWrite_cases a v s with h | ⟨-, h⟩ | h | ⟨-, -, h⟩ | ⟨-, h⟩ | ⟨-, h⟩ | ⟨_, -, -, h⟩ <;> simp [h]

/-- R42: a host write that is no acceptance leaves the outcome and the place in the stream alone. -/
theorem hostWrite_keeps_outcome {a : HostAddr} {s : State} (h : a ≠ 0 ∨ s.phase ≠ .idle) (v : Word) :
    (hostWrite a v s).phase = s.phase ∧ (hostWrite a v s).tpc = s.tpc ∧ (hostWrite a v s).done = s.done
      ∧ (hostWrite a v s).err = s.err := by
  rcases hostWrite_cases a v s with hw | ⟨-, hw⟩ | hw | ⟨ha, hi, hw⟩ | ⟨-, hw⟩ | ⟨-, hw⟩ | ⟨_, -, -, hw⟩
  case inr.inr.inr.inl => exact absurd h (by simp [ha, hi])
  all_goals simp [hw]

/-! ### The host's reads -/

theorem readStep_next {a : HostAddr} {s t : State} (h : readStep a s = .next t) : ∃ v, t = s.logRead v := by
  unfold readStep at h
  split at h
  · rename_i v _
    exact ⟨v, by simpa using h.symm⟩
  · cases h

/-- R61: a cell's address. -/
theorem target_cell {hmax : Nat} {a : HostAddr} {i : Nat} (h : target hmax a = .cell i) :
    a.toNat = 0x10000 + i ∧ i < hmax := by
  unfold target at h
  split at h <;> try cases h
  split at h
  · rename_i hc
    obtain rfl : a.toNat - 0x10000 = i := by simpa using h
    omega
  · cases h

/-- R62: the one read without a value is that of an unwritten cell (log 1). -/
theorem hostRead_none {a : HostAddr} {s : State} (h : hostRead a s = none) :
    ∃ i, a.toNat = 0x10000 + i ∧ i < s.hmax ∧ Memory.read s.hbuf i = none := by
  unfold hostRead at h
  split at h <;> try cases h
  rename_i i ht
  obtain ⟨ha, hi⟩ := target_cell ht
  exact ⟨i, ha, hi, h⟩

end Sys2Proof.Machine
end

section
/-! SUPPORT. The invariant of reachable states: what each operation does to it, and that every step keeps it
(spec/10_state.md R24, R29, R30, R37, R41). -/

namespace Sys2Proof.Machine

/-! ### What the invariant says of a phase -/

theorem StateInv.outcome_of_busy {s : State} (h : StateInv s) (hp : s.phase ≠ .idle) :
    s.done = false ∧ s.err = 0 := by
  constructor
  · by_contra hd
    exact hp (h.doneAlone (by simpa using hd)).1
  · by_contra he
    exact hp (h.errIdle he)

theorem errorCode_ne_zero (e : BlockError) : errorCode e ≠ 0 := by cases e <;> decide

theorem errorCode_le (e : BlockError) : (errorCode e).toNat ≤ 3 := by cases e <;> decide

theorem RunReady.congr {s t : State} (h : RunReady s) (hfs : t.fs = s.fs) (hhlen : t.hlen = s.hlen)
    (hhbuf : t.hbuf = s.hbuf) (hcmd : t.cmd = s.cmd) (hcap : t.cap = s.cap) (htpc : t.tpc = s.tpc) : RunReady t := by
  obtain ⟨i, toks, hd, hh, hk, hl⟩ := h
  refine ⟨i, toks, by rw [hcmd, hd], fun hr => ?_, by rw [tokensOf_congr hfs hhlen hhbuf, hk], by rw [htpc]; exact hl⟩
  obtain ⟨hdr, hhdr⟩ := hh hr
  exact ⟨hdr, hhdr.congr hhlen hhbuf hcap⟩

/-- R37: a checked command enters `RUN` with a token at `TPC`. -/
theorem runReady_enterRun {s : State} {i : Instr} (hd : decode s.cmd = .ok i) (hc : Checked i s) :
    RunReady s.enterRun := by
  obtain ⟨toks, hk⟩ := hc.tokensOf_isSome
  refine ⟨i, toks, hd, hc, (tokensOf_congr rfl rfl rfl).trans hk, ?_⟩
  exact List.length_pos_iff.2 (tokensOf_ne_nil hk)

/-- R39: after a token that is not the last there is a next one, for `TPC` does not wrap (R7). -/
theorem runReady_advance {s : State} {i : Instr} {toks : List Token} (t : Token) (hcap : s.hmax ≤ 65535)
    (h : RunReady s) (hd : decode s.cmd = .ok i) (hk : tokensOf i s = some toks)
    (hl : s.tpc.toNat + 1 ≠ toks.length) : RunReady (s.advance t) := by
  obtain ⟨j, toks', hj, hc, hk', hlt⟩ := h
  obtain rfl : i = j := by simpa [hd] using hj
  obtain rfl : toks = toks' := by simpa [hk] using hk'
  have hnext : (s.tpc + 1).toNat = s.tpc.toNat + 1 := tpc_succ hlt (tokensOf_length_lt hcap hc hk)
  refine ⟨i, toks, hd, hc, (tokensOf_congr rfl rfl rfl).trans hk, ?_⟩
  rw [State.advance_tpc, hnext]
  omega

/-! ### Each operation keeps it -/

theorem StateInv.setBusywr {s : State} (h : StateInv s) (b : Bool) : StateInv { s with busywr := b } :=
  ⟨h.memory, h.cells, h.capacity, h.codes, h.doneAlone, h.errIdle, h.infoZero, h.tpcZero,
    fun hp => (h.running hp).congr rfl rfl rfl rfl rfl rfl⟩

theorem StateInv.of_sameBlock {s t : State} (h : StateInv s) (hb : SameBlock s t) : StateInv t := by
  obtain ⟨hfs, hhlen, hhbuf, hcmd, hdone, herr, -, heinfo, hcap, hphase, htpc⟩ := hb
  have hhmax := State.hmax_eq_of_cap hcap
  constructor
  case running =>
    intro hp
    exact (h.running (hphase ▸ hp)).congr hfs hhlen hhbuf hcmd hcap htpc
  all_goals simp only [hhbuf, hhmax, hdone, herr, heinfo, hphase, htpc]
  exacts [h.memory, h.cells, h.capacity, h.codes, h.doneAlone, h.errIdle, h.infoZero, h.tpcZero]

theorem StateInv.accept {s : State} (h : StateInv s) (v : Word) : StateInv (s.accept v) where
  memory := h.memory
  cells := h.cells
  capacity := h.capacity
  codes := by simp
  doneAlone := by simp
  errIdle := by simp
  infoZero := by simp
  tpcZero := by simp
  running := by simp

theorem StateInv.raise {s : State} (h : StateInv s) (hp : s.phase = .check) (e : BlockError) (info : Word) :
    StateInv (s.raise e info) where
  memory := h.memory
  cells := h.cells
  capacity := h.capacity
  codes := errorCode_le e
  doneAlone := by simp [(h.outcome_of_busy (by simp [hp])).1]
  errIdle := by simp
  infoZero := fun he => absurd he (errorCode_ne_zero e)
  tpcZero := by simp
  running := by simp

theorem StateInv.enterRun {s : State} {i : Instr} (h : StateInv s) (hp : s.phase = .check)
    (hd : decode s.cmd = .ok i) (hc : Checked i s) : StateInv s.enterRun where
  memory := h.memory
  cells := h.cells
  capacity := h.capacity
  codes := h.codes
  doneAlone := by simp [(h.outcome_of_busy (by simp [hp])).1]
  errIdle := by simp [(h.outcome_of_busy (by simp [hp])).2]
  infoZero := h.infoZero
  tpcZero := by simp
  running := fun _ => runReady_enterRun hd hc

theorem StateInv.advance {s : State} {i : Instr} {toks : List Token} (t : Token) (h : StateInv s) (hp : s.phase = .run)
    (hd : decode s.cmd = .ok i) (hk : tokensOf i s = some toks) (hl : s.tpc.toNat + 1 ≠ toks.length) :
    StateInv (s.advance t) where
  memory := h.memory
  cells := h.cells
  capacity := h.capacity
  codes := h.codes
  doneAlone := h.doneAlone
  errIdle := h.errIdle
  infoZero := h.infoZero
  tpcZero := by simp [hp]
  running := fun _ => runReady_advance t h.capacity.2 (h.running hp) hd hk hl

theorem StateInv.complete {s : State} (t : Token) (h : StateInv s) (hp : s.phase = .run) : StateInv (s.complete t) where
  memory := h.memory
  cells := h.cells
  capacity := h.capacity
  codes := h.codes
  doneAlone := by simp [(h.outcome_of_busy (by simp [hp])).2]
  errIdle := by simp
  infoZero := h.infoZero
  tpcZero := by simp
  running := by simp

/-- The registers an idle block takes from the host are free. -/
theorem StateInv.setRegisters {s : State} (h : StateInv s) (hp : s.phase = .idle) (fs hlen : Word) :
    StateInv { s with fs := fs, hlen := hlen } :=
  ⟨h.memory, h.cells, h.capacity, h.codes, h.doneAlone, h.errIdle, h.infoZero, h.tpcZero, by simp [hp]⟩

theorem StateInv.setCell {s : State} (h : StateInv s) (hp : s.phase = .idle) {i : Nat} (hi : i < s.hmax) (v : Word) :
    StateInv (s.setCell i v) :=
  ⟨Memory.wf_write h.memory i v, Memory.within_write h.cells hi v, h.capacity, h.codes, h.doneAlone, h.errIdle,
    h.infoZero, h.tpcZero, by simp [hp]⟩

theorem StateInv.strike {s : State} (h : StateInv s) : StateInv s.strike where
  memory := rfl
  cells := rfl
  capacity := h.capacity
  codes := by simp
  doneAlone := by simp
  errIdle := by simp
  infoZero := by simp
  tpcZero := by simp
  running := by simp

/-! ### Every step keeps it -/

theorem StateInv.sequencerTurn {s t : State} (h : StateInv s) (ht : sequencerTurn s = .next t) : StateInv t := by
  have ho := sequencerTurn_outcome s
  rw [ht] at ho
  cases ho with
  | idle | stalled => exact h
  | error e info hp => exact h.raise hp e info
  | passed hp hd hc => exact h.enterRun hp hd hc
  | advanced hp hd hk _ _ hl => exact h.advance _ hp hd hk hl
  | completed hp => exact h.complete _ hp

theorem StateInv.hostWrite {s : State} (h : StateInv s) (a : HostAddr) (v : Word) : StateInv (hostWrite a v s) := by
  by_cases hp : s.phase = .idle
  · rcases hostWrite_cases a v s with hw | ⟨-, hw⟩ | hw | ⟨-, -, hw⟩ | ⟨-, hw⟩ | ⟨-, hw⟩ | ⟨i, hi, -, hw⟩ <;> rw [hw]
    · exact h
    · exact h.setBusywr true
    · rw [State.writeStatus_eq]; exact h.setBusywr _
    · exact h.accept v
    · exact h.setRegisters hp v s.hlen
    · exact h.setRegisters hp s.fs v
    · exact h.setCell hp hi v
  · obtain ⟨b, hw⟩ := hostWrite_busy hp a v
    rw [hw]
    exact h.setBusywr b

theorem StateInv.agentStep {s t : State} {x : Input} (h : StateInv s) (ht : agentStep x s = .next t) :
    StateInv t := by
  cases x with
  | read a =>
    obtain ⟨v, rfl⟩ := readStep_next ht
    exact h.of_sameBlock (sameBlock_logRead s v)
  | write a v => cases ht; exact h.hostWrite a v
  | wait => cases ht; exact h.of_sameBlock (sameBlock_pollStep s)
  | ready level => cases ht; exact h.of_sameBlock (sameBlock_setReady s level)
  | turn => exact h.sequencerTurn ht
  | reset => cases ht; exact h.strike

/-- Settles O45: taking the move off the schedule leaves the block, and each agent's move keeps the invariant. -/
theorem stepKeepsInvariant : Obligations.StepKeepsInvariant :=
  fun s _ h ht => (h.of_sameBlock (sameBlock_takeMove s)).agentStep ht

/-- Settles O44. -/
theorem invariantAtReset : Obligations.InvariantAtReset where
  memory := rfl
  cells := rfl
  capacity := by decide
  codes := by decide
  doneAlone := by decide
  errIdle := by decide
  infoZero := fun _ => rfl
  tpcZero := fun _ => rfl
  running := by simp [State.reset]

/-! ### Where a run can stop -/

theorem sequencerTurn_stop {s : State} (h : StateInv s) :
    (∀ r, Machine.sequencerTurn s ≠ .refused r)
    ∧ ∀ f, Machine.sequencerTurn s = .fault f →
        f = .headerCellUnwritten ∧ s.phase = .check ∧ (∃ i, decode s.cmd = .ok i ∧ readsHeader i = true)
          ∧ s.hlen.toNat ≤ s.hmax ∧ ∃ j, j < s.hlen.toNat ∧ Memory.read s.hbuf j = none := by
  have ho := sequencerTurn_outcome s
  constructor
  · intro r hr
    rw [hr] at ho
    cases ho
  · intro f hf
    rw [hf] at ho
    cases ho with
    | unwritten hp hd hr hle hc =>
      obtain ⟨j, hj, hn⟩ := Memory.readRange_none.1 hc
      exact ⟨rfl, hp, ⟨_, hd, hr⟩, hle, j, hj, by simpa using hn⟩
    | unreachable _ hp hn => exact absurd (h.running hp) hn

theorem readStep_stop (a : HostAddr) (s : State) :
    (∀ r, readStep a s ≠ .refused r)
    ∧ ∀ f, readStep a s = .fault f →
        f = .hostReadUnwritten ∧ ∃ i, a.toNat = 0x10000 + i ∧ i < s.hmax ∧ Memory.read s.hbuf i = none := by
  unfold readStep
  split
  · simp
  · rename_i hn
    simp [hostRead_none hn]

/-- Settles O46: the sequencer's turn and a host read are the two moves that can stop, and each only for a cell. -/
theorem onlyUnwrittenCellsStop : Obligations.OnlyUnwrittenCellsStop := by
  intro s h
  have hturn := sequencerTurn_stop (h.of_sameBlock (sameBlock_takeMove s))
  cases hx : s.inputs.head?.getD .turn with
  | turn =>
    rw [step_move hx]
    exact ⟨hturn.1, fun f hf => .inl (by simpa using hturn.2 f hf)⟩
  | read a =>
    obtain ⟨rest, hi⟩ : ∃ rest, s.inputs = .read a :: rest := by
      cases hs : s.inputs with
      | nil => simp [hs] at hx
      | cons x rest => exact ⟨rest, by simpa [hs] using hx⟩
    rw [step_cons hi]
    obtain ⟨hno, hfault⟩ := readStep_stop a { s with inputs := rest }
    refine ⟨hno, fun f hf => .inr ?_⟩
    obtain ⟨rfl, i, ha, hlt, hn⟩ := hfault f hf
    exact ⟨rfl, a, rest, i, hi, ha, hlt, hn⟩
  | _ => simp [step_move hx, agentStep]

/-! ### Frames -/

/-- R42: what the sequencer's turn never writes. -/
theorem sequencerTurn_frame {s t : State} (h : sequencerTurn s = .next t) :
    t.fs = s.fs ∧ t.hlen = s.hlen ∧ t.hbuf = s.hbuf ∧ t.cmd = s.cmd ∧ t.cap = s.cap ∧ t.busywr = s.busywr
      ∧ t.reads = s.reads ∧ t.outReady = s.outReady := by
  have ho := sequencerTurn_outcome s
  rw [h] at ho
  cases ho <;> simp

/-- R42: what a host write never changes, what it keeps unless it is an acceptance, and what it keeps while busy. -/
theorem hostWrite_frame (a : HostAddr) (v : Word) (s : State) :
    (hostWrite a v s).sunk = s.sunk ∧ (hostWrite a v s).cap = s.cap
      ∧ (a ≠ 0 ∨ s.phase ≠ .idle → (hostWrite a v s).phase = s.phase ∧ (hostWrite a v s).tpc = s.tpc)
      ∧ (s.phase ≠ .idle → (hostWrite a v s).hbuf = s.hbuf) := by
  obtain ⟨hsunk, hcap⟩ := hostWrite_keeps a v s
  refine ⟨hsunk, hcap, fun h => ?_, fun h => ?_⟩
  · obtain ⟨hphase, htpc, -⟩ := hostWrite_keeps_outcome h v
    exact ⟨hphase, htpc⟩
  · obtain ⟨b, hw⟩ := hostWrite_busy h a v
    rw [hw]

/-- Settles O47, one kind of move at a time, on the state from which the move has been taken. -/
theorem stepsChangeOnlyTheirOwn : Obligations.StepsChangeOnlyTheirOwn := by
  intro s t h
  have htaken := sameBlock_takeMove s
  have move : ∀ x, s.inputs.head? = some x → agentStep x (takeMove s).2 = .next t := fun x hx => by
    rw [← step_move (by rw [hx]; rfl), h]
  refine ⟨fun hx => ?_, fun a v hx => ?_, fun a hx => ?_, fun level hx => ?_, fun hx => ?_⟩
  · rw [step_move hx] at h
    simpa using sequencerTurn_frame h
  · cases move _ hx
    simpa using hostWrite_frame a v (takeMove s).2
  · obtain ⟨v, rfl⟩ := readStep_next (move _ hx)
    exact ⟨htaken.trans (sameBlock_logRead _ v), by simp⟩
  · cases move _ hx
    exact ⟨htaken.trans (sameBlock_setReady _ level), by simp⟩
  · cases move _ hx
    exact ⟨htaken.trans (sameBlock_pollStep _), by simp⟩

/-! ### The outcome flags -/

theorem outcomeCount_congr {s t : State} (hphase : t.phase = s.phase) (hdone : t.done = s.done)
    (herr : t.err = s.err) : outcomeCount t = outcomeCount s := by
  simp [outcomeCount, State.busy, hphase, hdone, herr]

theorem SameBlock.outcomeCount_eq {s t : State} (h : SameBlock s t) : outcomeCount t = outcomeCount s := by
  obtain ⟨-, -, -, -, hdone, herr, -, -, -, hphase, -⟩ := h
  exact outcomeCount_congr hphase hdone herr

/-- R29: a busy block has neither finished nor failed. -/
theorem StateInv.outcomeCount_of_busy {s : State} (h : StateInv s) (hp : s.phase ≠ .idle) : outcomeCount s = 1 := by
  obtain ⟨hd, he⟩ := h.outcome_of_busy hp
  simp [outcomeCount, s.busy_iff.2 hp, hd, he]

theorem StateInv.outcomeCount_raise {s : State} (h : StateInv s) (hp : s.phase = .check) (e : BlockError)
    (info : Word) : outcomeCount (s.raise e info) = 1 := by
  have hdone : s.done = false := (h.outcome_of_busy (by simp [hp])).1
  cases e <;> simp [outcomeCount, State.busy, errorCode, hdone]

theorem StateInv.outcomeCount_complete {s : State} (h : StateInv s) (hp : s.phase = .run) (t : Token) :
    outcomeCount (s.complete t) = 1 := by
  simp [outcomeCount, State.busy, (h.outcome_of_busy (by simp [hp])).2]

theorem outcomeCount_accept (s : State) (v : Word) : outcomeCount (s.accept v) = 1 := by
  simp [outcomeCount, State.busy]

theorem StateInv.outcomeCount_sequencerTurn {s t : State} (h : StateInv s) (hc : outcomeCount s = 1)
    (ht : Machine.sequencerTurn s = .next t) : outcomeCount t = 1 := by
  have hinv := h.sequencerTurn ht
  have ho := sequencerTurn_outcome s
  rw [ht] at ho
  cases ho with
  | idle | stalled => exact hc
  | error e info hp => exact h.outcomeCount_raise hp e info
  | passed => exact hinv.outcomeCount_of_busy (by simp)
  | advanced hp => exact hinv.outcomeCount_of_busy (by simp [hp])
  | completed hp => exact h.outcomeCount_complete hp _

theorem outcomeCount_hostWrite {s : State} (hc : outcomeCount s = 1) (a : HostAddr) (v : Word) :
    outcomeCount (hostWrite a v s) = 1 := by
  by_cases h : a ≠ 0 ∨ s.phase ≠ .idle
  · obtain ⟨hphase, -, hdone, herr⟩ := hostWrite_keeps_outcome h v
    rw [outcomeCount_congr hphase hdone herr, hc]
  · obtain ⟨rfl, hp⟩ : a = 0 ∧ s.phase = .idle := by simpa using h
    rw [hostWrite_cmd_idle hp, outcomeCount_accept]

/-- R29: no agent's move but a reset strike changes how many outcomes hold. -/
theorem StateInv.outcomeCount_agentStep {s t : State} {x : Input} (h : StateInv s) (hc : outcomeCount s = 1)
    (hx : x ≠ .reset) (ht : Machine.agentStep x s = .next t) : outcomeCount t = 1 := by
  cases x with
  | read a =>
    obtain ⟨v, rfl⟩ := readStep_next ht
    rw [(sameBlock_logRead s v).outcomeCount_eq, hc]
  | write a v => cases ht; exact outcomeCount_hostWrite hc a v
  | wait => cases ht; rw [(sameBlock_pollStep s).outcomeCount_eq, hc]
  | ready level => cases ht; rw [(sameBlock_setReady s level).outcomeCount_eq, hc]
  | turn => exact h.outcomeCount_sequencerTurn hc ht
  | reset => exact absurd rfl hx

/-- Settles O48. -/
theorem exactlyOneOutcomeFlag : Obligations.ExactlyOneOutcomeFlag := by
  refine ⟨fun s t h hc hx ht => ?_, fun s v rest t hp hi ht => ?_, rfl⟩
  · have htaken := sameBlock_takeMove s
    have hmove : s.inputs.head?.getD .turn ≠ .reset := by
      cases hh : s.inputs.head? with
      | none => simp
      | some x => rw [hh] at hx; simpa using hx
    rw [step_move rfl] at ht
    exact (h.of_sameBlock htaken).outcomeCount_agentStep (htaken.outcomeCount_eq.trans hc) hmove ht
  · rw [step_cons hi, agentStep, hostWrite_cmd_idle (by simpa using hp)] at ht
    cases ht
    exact outcomeCount_accept _ v

end Sys2Proof.Machine
end

section
/-! SUPPORT. Whole commands: one step per token with an accepting sink, and the stream under any schedule that neither
resets nor accepts another command (spec/10_state.md R34, R37 to R41, R315). -/

namespace Sys2Proof.Machine

/-- R39: with nothing scheduled and the sink accepting, a step in `RUN` sends the token at `TPC`. -/
theorem step_sends {s : State} {i : Instr} {toks : List Token} (hp : s.phase = .run) (hd : decode s.cmd = .ok i)
    (hi : s.inputs = []) (hr : s.outReady = true) (hk : tokensOf i s = some toks) (hl : s.tpc.toNat < toks.length) :
    step s = .next (if s.tpc.toNat + 1 = toks.length then s.complete toks[s.tpc.toNat]
      else s.advance toks[s.tpc.toNat]) := by
  have ht : toks[s.tpc.toNat]? = some toks[s.tpc.toNat] := List.getElem?_eq_getElem hl
  rw [step_nil hi, sequencerTurn_run hp hd hk]
  split
  · exact transfer_last hr ht ‹_›
  · exact transfer_middle hr ht ‹_›

/-- In `RUN` with nothing scheduled and the sink accepting, one step per token still to come ends the command: by
induction on the number of tokens left, each step but the last advancing. -/
theorem runFor_transfers {i : Instr} {toks : List Token} (hlt : toks.length < 2 ^ 32) (n : Nat) {s : State}
    (hp : s.phase = .run) (hd : decode s.cmd = .ok i) (hi : s.inputs = []) (hr : s.outReady = true)
    (hk : tokensOf i s = some toks) (hn : s.tpc.toNat + (n + 1) = toks.length) :
    runFor (n + 1) s =
      .next { s with
        phase := .idle, tpc := 0, done := true, sunk := s.sunk ++ (toks.drop s.tpc.toNat).map Token.encode } := by
  induction n generalizing s with
  | zero =>
    have hl : s.tpc.toNat < toks.length := by omega
    have hstep := step_sends hp hd hi hr hk hl
    rw [if_pos (by omega)] at hstep
    rw [runFor_succ 0 hstep, runFor_zero, List.drop_eq_getElem_cons hl, List.drop_eq_nil_of_le (by omega)]
    rfl
  | succ n ih =>
    have hl : s.tpc.toNat < toks.length := by omega
    have hstep := step_sends hp hd hi hr hk hl
    rw [if_neg (by omega)] at hstep
    have hnext : (s.advance toks[s.tpc.toNat]).tpc.toNat = s.tpc.toNat + 1 := tpc_succ hl hlt
    have hrest := ih (s := s.advance toks[s.tpc.toNat]) hp hd hi hr ((tokensOf_congr rfl rfl rfl).trans hk) (by omega)
    rw [runFor_succ (n + 1) hstep, hrest, hnext, List.drop_eq_getElem_cons hl]
    simp only [State.advance, List.map_cons, List.append_assoc, List.singleton_append]

/-- Settles O49: the check step enters `RUN` at token 0, and the transfers follow. -/
theorem commandDeliversItsTokens : Obligations.CommandDeliversItsTokens := by
  intro s i toks hp hd hi hr hcap hc hk
  obtain ⟨n, hn⟩ : ∃ n, toks.length = n + 1 := Nat.exists_eq_succ_of_ne_zero (by simpa using tokensOf_ne_nil hk)
  have hcheck : step s = .next s.enterRun := by rw [step_nil hi, sequencerTurn_checked hp hd hc]
  have hrun := runFor_transfers (s := s.enterRun) (tokensOf_length_lt hcap hc hk) n rfl hd hi hr
    ((tokensOf_congr rfl rfl rfl).trans hk) (by simp [hn])
  rw [hn, Nat.add_comm 1, runFor_succ (n + 1) hcheck, hrun]
  rfl

/-! ### Any schedule -/

/-- Where the stream of a command stands, `sunk` and `done` being what they were at its first token: so many tokens are
sent and the block is in `RUN` at the next one, or all are sent and the block is idle with `DONE` = 1. -/
inductive Streaming (i : Instr) (toks : List Token) (sunk : List TokenWord) (done : Bool) (t : State) : Prop where
  | sending (hp : t.phase = .run) (hd : decode t.cmd = .ok i) (hk : tokensOf i t = some toks)
      (hl : t.tpc.toNat < toks.length) (hs : t.sunk = sunk ++ (toks.take t.tpc.toNat).map Token.encode)
      (hdone : t.done = done)
  | sent (hp : t.phase = .idle) (hs : t.sunk = sunk ++ toks.map Token.encode) (hdone : t.done = true)

section
variable {i : Instr} {toks : List Token} {sunk : List TokenWord} {done : Bool} {t u : State}

theorem Streaming.of_sameBlock (h : Streaming i toks sunk done t) (hb : SameBlock t u) (hu : u.sunk = t.sunk) :
    Streaming i toks sunk done u := by
  obtain ⟨-, -, -, hcmd, hdone, -, -, -, -, hphase, htpc⟩ := id hb
  cases h with
  | sending hp hd hk hl hs hd' =>
    exact .sending (hphase.trans hp) (hcmd ▸ hd) ((hb.tokensOf_eq i).trans hk) (htpc ▸ hl) (by rw [hu, htpc, hs])
      (hdone.trans hd')
  | sent hp hs hd' => exact .sent (hphase.trans hp) (hu.trans hs) (hdone.trans hd')

/-- R41: a write that is no acceptance leaves the stream alone; while the block is busy it is dropped. -/
theorem Streaming.hostWrite (h : Streaming i toks sunk done t) {a : HostAddr} (ha : a ≠ 0 ∨ t.phase ≠ .idle) (v : Word) :
    Streaming i toks sunk done (hostWrite a v t) := by
  cases h with
  | sending hp hd hk hl hs hdone =>
    obtain ⟨b, hw⟩ := hostWrite_busy (show t.phase ≠ .idle by simp [hp]) a v
    rw [hw]
    exact .sending hp hd ((tokensOf_congr rfl rfl rfl).trans hk) hl hs hdone
  | sent hp hs hdone =>
    obtain ⟨hphase, -, hdone', -⟩ := hostWrite_keeps_outcome ha v
    obtain ⟨hsunk, -⟩ := hostWrite_keeps a v t
    exact .sent (hphase.trans hp) (hsunk.trans hs) (hdone'.trans hdone)

/-- R39: the token at `TPC` follows those sent before it. -/
theorem sunk_append_token {n : Nat} {k : Token} (hk : toks[n]? = some k) :
    sunk ++ (toks.take n).map Token.encode ++ [k.encode] = sunk ++ (toks.take (n + 1)).map Token.encode := by
  rw [List.take_add_one, hk]
  simp

/-- R38, R39: the sequencer's turn holds the stream, sends the next token, or sends the last and completes. -/
theorem Streaming.sequencerTurn (hlt : toks.length < 2 ^ 32) (h : Streaming i toks sunk done t)
    (ht : sequencerTurn t = .next u) : Streaming i toks sunk done u := by
  cases h with
  | sent hp hs hdone =>
    rw [sequencerTurn_idle hp] at ht
    cases ht
    exact .sent hp hs hdone
  | sending hp hd hk hl hs hdone =>
    rw [sequencerTurn_run hp hd hk] at ht
    rcases transfer_cases toks t with ⟨-, h⟩ | ⟨-, -, h⟩ | ⟨k, -, hk', hlast, h⟩ | ⟨k, -, hk', hlast, h⟩ <;>
      rw [h] at ht <;> cases ht
    · exact .sending hp hd hk hl hs hdone
    · refine .sent rfl ?_ rfl
      rw [State.complete_sunk, hs, sunk_append_token hk', hlast, List.take_length]
    · have hnext : (t.tpc + 1).toNat = t.tpc.toNat + 1 := tpc_succ hl hlt
      refine .sending hp hd ((tokensOf_congr rfl rfl rfl).trans hk) ?_ ?_ hdone
      · rw [State.advance_tpc, hnext]; omega
      · rw [State.advance_sunk, State.advance_tpc, hnext, hs, sunk_append_token hk']

theorem Streaming.agentStep {x : Input} (hlt : toks.length < 2 ^ 32) (h : Streaming i toks sunk done t)
    (hreset : x ≠ .reset) (haccept : ∀ a v, x = .write a v → a ≠ 0 ∨ t.phase ≠ .idle)
    (ht : agentStep x t = .next u) : Streaming i toks sunk done u := by
  cases x with
  | read a =>
    obtain ⟨v, rfl⟩ := readStep_next ht
    exact h.of_sameBlock (sameBlock_logRead t v) rfl
  | write a v => cases ht; exact h.hostWrite (haccept a v rfl) v
  | wait => cases ht; exact h.of_sameBlock (sameBlock_pollStep t) (pollStep_sunk t)
  | ready level => cases ht; exact h.of_sameBlock (sameBlock_setReady t level) rfl
  | turn => exact h.sequencerTurn hlt ht
  | reset => exact absurd rfl hreset

/-- An undisturbed step keeps the stream where its tokens put it. -/
theorem Streaming.step (hlt : toks.length < 2 ^ 32) (h : Streaming i toks sunk done t) (hu : disturbs t = false)
    (ht : step t = .next u) : Streaming i toks sunk done u := by
  obtain ⟨hreset, haccept⟩ := not_disturbs hu
  exact (h.of_sameBlock (sameBlock_takeMove t) (takeMove_sunk t)).agentStep hlt hreset (by simpa using haccept) ht

theorem Streaming.runFor (hlt : toks.length < 2 ^ 32) {n : Nat} (h : Streaming i toks sunk done t)
    (hu : undisturbedFor n t = true) (ht : runFor n t = .next u) : Streaming i toks sunk done u := by
  induction n generalizing t with
  | zero => cases ht; exact h
  | succ n ih =>
    cases hs : Machine.step t with
    | next t' =>
      obtain ⟨hfirst, hrest⟩ := undisturbedFor_succ hu hs
      rw [runFor_succ n hs] at ht
      exact ih (h.step hlt hfirst hs) hrest ht
    | fault f => simp [Machine.runFor, hs] at ht
    | refused r => simp [Machine.runFor, hs] at ht

end

/-- Settles O50: at its first token a command is streaming with none sent, and every undisturbed run keeps it so. -/
theorem streamIsPrefixUntilResetOrNextCommand : Obligations.StreamIsPrefixUntilResetOrNextCommand := by
  intro s t i toks n hp htpc hd hcap hc hk hu ht
  have hpos : 0 < toks.length := List.length_pos_iff.2 (tokensOf_ne_nil hk)
  have hstart : Streaming i toks s.sunk s.done s := .sending hp hd hk (by simpa [htpc] using hpos) (by simp [htpc]) rfl
  cases hstart.runFor (tokensOf_length_lt hcap hc hk) hu ht with
  | sending hp' _ _ hl hs hdone =>
    refine ⟨t.tpc.toNat, hl.le, hs, ?_, fun h => ?_⟩
    · simp [hp', hl.ne]
    · simp [hdone, h, hl.ne]
  | sent hp' hs hdone =>
    exact ⟨toks.length, le_rfl, by rw [hs, List.take_length], by simp [hp'], fun _ => by simp [hdone]⟩

end Sys2Proof.Machine
end

section
/-! SUPPORT. One step each: a turn of the sequencer in every phase, an accepted command, and a reset strike
(spec/10_state.md R31 to R45). -/

namespace Sys2Proof.Machine

/-- Settles O30. -/
theorem stepRunsTheDecodedInstruction : Obligations.StepRunsTheDecodedInstruction := by
  intro s i hp hd
  exact ⟨fun hi => by rw [step_nil hi, sequencerTurn_ok hp hd],
    fun rest hi => by rw [step_cons hi]; exact sequencerTurn_ok hp hd⟩

/-- R36: the step in which the host writes `CMD` of an idle block. -/
theorem step_write_cmd {s : State} {v : Word} {rest : List Input} (hp : s.phase = .idle)
    (hi : s.inputs = .write 0 v :: rest) : step s = .next ({ s with inputs := rest }.accept v) := by
  rw [step_cons hi, agentStep, hostWrite_cmd_idle (s := { s with inputs := rest }) hp]

/-- Settles O31. -/
theorem issueIsAcceptance : Obligations.IssueIsAcceptance := by
  intro s i rest hp hi
  have hexec : exec i { s with inputs := rest } = .next ({ s with inputs := rest }.accept (encode i)) := exec_idle hp
  exact ⟨by rw [step_write_cmd hp hi, hexec], exec_idle hp⟩

/-- Settles O32. -/
theorem acceptanceEffect : Obligations.AcceptanceEffect :=
  fun _ _ _ hp hi => ⟨_, step_write_cmd hp hi, rfl, rfl⟩

/-! ### The check step -/

/-- The header's cells, one by one (R67). -/
theorem headerCells_of_read {s : State} {cells : List Word} (hl : cells.length = s.hlen.toNat)
    (hread : ∀ j, (h : j < cells.length) → Memory.read s.hbuf j = some cells[j]) : s.headerCells = some cells :=
  Memory.readRange_some.2 ⟨hl, fun j hj => by rw [Nat.zero_add, hread j hj]⟩

theorem headerCells_of_unwritten {s : State} {j : Nat} (hj : j < s.hlen.toNat)
    (hread : Memory.read s.hbuf j = none) : s.headerCells = none :=
  Memory.readRange_none.2 ⟨j, hj, by rw [Nat.zero_add, hread]⟩

theorem checkHeader_tooLong {s : State} (h : s.hmax < s.hlen.toNat) :
    checkHeader s = .next (s.raise .lengthError s.hlen) := by
  simp [checkHeader, h]

theorem checkHeader_badCell {s : State} {cells : List Word} {k : Nat} (hle : s.hlen.toNat ≤ s.hmax)
    (hc : s.headerCells = some cells) (hk : leastBadIndex cells = some k) :
    checkHeader s = .next (s.raise .encodingError (BitVec.ofNat 32 k)) := by
  simp [checkHeader, Nat.not_lt.2 hle, hc, hk]

theorem checkHeader_passed {s : State} {cells : List Word} (hle : s.hlen.toNat ≤ s.hmax)
    (hc : s.headerCells = some cells) (hk : leastBadIndex cells = none) : checkHeader s = .next s.enterRun := by
  simp [checkHeader, Nat.not_lt.2 hle, hc, hk]

theorem checkHeader_unwritten {s : State} (hle : s.hlen.toNat ≤ s.hmax) (hc : s.headerCells = none) :
    checkHeader s = .fault .headerCellUnwritten := by
  rw [checkHeader, if_neg (Nat.not_lt.2 hle), hc]

/-- Settles O33: the word decides first, then `HLEN`, then the cells. -/
theorem checkStepDecides : Obligations.CheckStepDecides := by
  intro s rest hp hi s₀
  have hturn : step s = sequencerTurn s₀ := step_turn hi
  refine ⟨fun why hd => hturn.trans (sequencerTurn_illegal (s := s₀) hp hd), fun i hd => ?_⟩
  have hcheck : step s = if readsHeader i then checkHeader s₀ else .next s₀.enterRun :=
    hturn.trans (sequencerTurn_check (s := s₀) hp hd)
  refine ⟨fun hr => by rw [hcheck, hr]; rfl, fun hr => ?_⟩
  rw [hcheck, if_pos hr]
  refine ⟨fun hlt => checkHeader_tooLong (s := s₀) hlt, fun hle cells hl hread => ?_, fun hle j hj hn => ?_⟩
  · have hc : s₀.headerCells = some cells := headerCells_of_read hl hread
    exact ⟨fun k hk hbad hleast => checkHeader_badCell hle hc (leastBadIndex_some.2 ⟨hk, hbad, hleast⟩),
      fun hok => checkHeader_passed hle hc (leastBadIndex_none.2 (List.forall_mem_iff_forall_getElem.2 hok))⟩
  · exact checkHeader_unwritten hle (headerCells_of_unwritten (s := s₀) hj hn)

/-! ### The transfer step and the port -/

/-- Settles O34. -/
theorem transferStepDelivers : Obligations.TransferStepDelivers := by
  intro s rest toks t hp hi hr hk ht s₀
  obtain ⟨i, hd, hk⟩ := State.tokens_eq_some.1 hk
  have hk₀ : tokensOf i s₀ = some toks := (tokensOf_congr rfl rfl rfl).trans hk
  have hlt : s.tpc.toNat < toks.length := (List.getElem?_eq_some_iff.1 ht).1
  rw [step_turn hi, sequencerTurn_run (s := s₀) hp hd hk₀]
  split
  · exact transfer_last hr ht (show s.tpc.toNat + 1 = toks.length by omega)
  · exact transfer_middle hr ht (show s.tpc.toNat + 1 ≠ toks.length by omega)

/-- R38: while the sink does not accept, the token stays offered. -/
theorem sequencerTurn_stalled {s : State} {toks : List Token} (hp : s.phase = .run) (hr : s.outReady = false)
    (hk : s.tokens = some toks) : sequencerTurn s = .next s := by
  obtain ⟨i, hd, hk⟩ := State.tokens_eq_some.1 hk
  rw [sequencerTurn_run hp hd hk, transfer_stall hr]

/-- Settles O35. -/
theorem stallHoldsTheToken : Obligations.StallHoldsTheToken := by
  intro s rest hi h
  have hblock := sameBlock_setInputs s rest
  refine ⟨_, ?_, rfl, hblock.outData_eq, hblock.outValid_eq⟩
  rw [step_turn hi]
  rcases h with ⟨hp, hr, hk⟩ | hp
  · obtain ⟨toks, hk⟩ := Option.isSome_iff_exists.1 hk
    exact sequencerTurn_stalled (s := { s with inputs := rest }) hp hr (hblock.tokens_eq.trans hk)
  · exact sequencerTurn_idle hp

/-- What a turn in `RUN` sends with the sink accepting is the word on the port. -/
theorem sequencerTurn_sends_outData {s t : State} (hp : s.phase = .run) (hr : s.outReady = true)
    (h : sequencerTurn s = .next t) : ∃ w, s.outData = some w ∧ t.sunk = s.sunk ++ [w] := by
  have ho := sequencerTurn_outcome s
  rw [h] at ho
  have offered {i : Instr} {toks : List Token} {k : Token} (hd : decode s.cmd = .ok i)
      (hk : tokensOf i s = some toks) (ht : toks[s.tpc.toNat]? = some k) : s.outData = some k.encode := by
    rw [State.outData_run hp (State.tokens_eq_some.2 ⟨i, hd, hk⟩), ht, Option.map_some]
  cases ho with
  | idle hp' | error _ _ hp' | passed hp' => simp [hp] at hp'
  | stalled _ hr' => simp [hr] at hr'
  | advanced _ hd hk _ ht | completed _ hd hk _ ht => exact ⟨_, offered hd hk ht, rfl⟩

/-- Settles O36. -/
theorem portOffersWhatIsTransferred : Obligations.PortOffersWhatIsTransferred := by
  intro s
  refine ⟨fun hp => by simpa using mt State.outValid_iff.1 hp, fun t hp hr hx ht => ?_⟩
  rw [step_move hx] at ht
  obtain ⟨w, hw, hsunk⟩ := sequencerTurn_sends_outData (by simpa using hp) (by simpa using hr) ht
  rw [(sameBlock_takeMove s).outData_eq] at hw
  exact ⟨w, State.outValid_iff.2 hp, hw, by simpa using hsunk⟩

/-! ### Reset -/

/-- R45: the block after a strike reads `STATUS` 0. -/
theorem strike_statusWord (s : State) : s.strike.statusWord = 0 := by
  simp [State.statusWord, State.busy]

/-- Settles O41. -/
theorem resetStrikeLeavesTheResetState : Obligations.ResetStrikeLeavesTheResetState := by
  intro s rest hi
  refine ⟨{ s with inputs := rest }.strike, by rw [step_cons hi, agentStep], ?_⟩
  simp [strike_statusWord, State.outValid, consts]

/-- Settles O42. -/
theorem resetStateValues : Obligations.ResetStateValues := rfl

end Sys2Proof.Machine
end

section
/-! SUPPORT. What each host access does, by address: the address map, the writes and the reads
(spec/20_memory.md R61 to R64). -/

namespace Sys2Proof.Machine

/-! ### The address map -/

/-- R61: above the six registers an address is a cell's or reserved. -/
theorem target_of_six_le {hmax : Nat} {a : HostAddr} (h : 6 ≤ a.toNat) :
    target hmax a =
      if 0x10000 ≤ a.toNat ∧ a.toNat - 0x10000 < hmax then .cell (a.toNat - 0x10000) else .reserved := by
  unfold target
  split
  case h_7 => rfl
  all_goals omega

theorem target_eq_cell {hmax i : Nat} {a : HostAddr} (hi : i < hmax) (ha : a.toNat = 0x10000 + i) :
    target hmax a = .cell i := by
  rw [target_of_six_le (by omega), if_pos (by omega), ha, Nat.add_sub_cancel_left]

theorem target_eq_reserved {hmax : Nat} {a : HostAddr} (h : 6 ≤ a.toNat)
    (ho : a.toNat < 0x10000 ∨ hmax ≤ a.toNat - 0x10000) : target hmax a = .reserved := by
  rw [target_of_six_le h, if_neg (by omega)]

/-! ### The writes -/

/-- R28, R41: what a write does when `BUSY` = 1 and when `BUSY` = 0, told by the phase. -/
theorem State.ite_busy (s : State) (dropped stored : State) :
    (if s.busy then dropped else stored) = if s.phase = .idle then stored else dropped := by
  by_cases hp : s.phase = .idle
  · rw [if_pos hp, (State.not_busy_iff s).2 hp, if_neg Bool.false_ne_true]
  · rw [if_neg hp, (State.busy_iff s).2 hp, if_pos rfl]

theorem hostWrite_cmd (v : Word) (s : State) :
    hostWrite 0 v s = if s.phase = .idle then s.accept v else s.dropWrite := s.ite_busy _ _

theorem hostWrite_status (v : Word) (s : State) : hostWrite 1 v s = s.writeStatus v := rfl

theorem hostWrite_fs (v : Word) (s : State) :
    hostWrite 2 v s = if s.phase = .idle then s.setFs v else s.dropWrite := s.ite_busy _ _

theorem hostWrite_hlen (v : Word) (s : State) :
    hostWrite 3 v s = if s.phase = .idle then s.setHlen v else s.dropWrite := s.ite_busy _ _

theorem hostWrite_cell {i : Nat} {a : HostAddr} {s : State} (hi : i < s.hmax) (ha : a.toNat = 0x10000 + i)
    (v : Word) : hostWrite a v s = if s.phase = .idle then s.setCell i v else s.dropWrite := by
  simp only [hostWrite, target_eq_cell hi ha, State.ite_busy]

/-- R63: `EINFO`, `CAP` and the reserved addresses take no write. -/
theorem hostWrite_ignored {a : HostAddr} {s : State} (h : 4 ≤ a.toNat)
    (ho : a.toNat < 0x10000 ∨ s.hmax ≤ a.toNat - 0x10000) (v : Word) : hostWrite a v s = s := by
  obtain h4 | h5 | h6 : a.toNat = 4 ∨ a.toNat = 5 ∨ 6 ≤ a.toNat := by omega
  · obtain rfl : a = 4 := BitVec.eq_of_toNat_eq h4
    rfl
  · obtain rfl : a = 5 := BitVec.eq_of_toNat_eq h5
    rfl
  · simp only [hostWrite, target_eq_reserved h6 ho]

theorem step_write {s : State} {a : HostAddr} {v : Word} {rest : List Input} (h : s.inputs = .write a v :: rest) :
    step s = .next (hostWrite a v { s with inputs := rest }) := step_cons h

/-- Settles O37. -/
theorem hostWriteEffects : Obligations.HostWriteEffects := by
  intro s a v rest h
  dsimp only
  rw [step_write h]
  refine ⟨?cmd, ?status, ?fs, ?hlen, ?cell, ?ignored⟩
  case cmd => rintro rfl; rw [hostWrite_cmd]; rfl
  case status => rintro rfl; rw [hostWrite_status]; rfl
  case fs => rintro rfl; rw [hostWrite_fs]; rfl
  case hlen => rintro rfl; rw [hostWrite_hlen]; rfl
  case cell => intro i hi ha; rw [hostWrite_cell (s := { s with inputs := rest }) hi ha]; rfl
  case ignored => intro h4 ho; rw [hostWrite_ignored (s := { s with inputs := rest }) h4 ho]

/-! ### The reads -/

/-- R62: the word of `STATUS`, told by the phase. -/
theorem State.statusWord_eq (s : State) :
    s.statusWord = 0#23 ++ BitVec.ofBool s.busywr ++ s.err ++ 0#2 ++ BitVec.ofBool s.done
      ++ BitVec.ofBool (decide (s.phase ≠ .idle)) := by
  rw [State.statusWord, show s.busy = decide (s.phase ≠ .idle) from Bool.eq_iff_iff.2 (by simp [State.busy_iff])]

theorem hostRead_cell {i : Nat} {a : HostAddr} {s : State} (hi : i < s.hmax) (ha : a.toNat = 0x10000 + i) :
    hostRead a s = Memory.read s.hbuf i := by
  simp only [hostRead, target_eq_cell hi ha]

/-- R64: a reserved address reads 0. -/
theorem hostRead_reserved {a : HostAddr} {s : State} (h : 6 ≤ a.toNat)
    (ho : a.toNat < 0x10000 ∨ s.hmax ≤ a.toNat - 0x10000) : hostRead a s = some 0 := by
  simp only [hostRead, target_eq_reserved h ho]

theorem readStep_of_some {a : HostAddr} {s : State} {v : Word} (h : hostRead a s = some v) :
    readStep a s = .next (s.logRead v) := by
  simp only [readStep, h]

theorem readStep_of_none {a : HostAddr} {s : State} (h : hostRead a s = none) :
    readStep a s = .fault .hostReadUnwritten := by
  simp only [readStep, h]

theorem step_read {s : State} {a : HostAddr} {rest : List Input} (h : s.inputs = .read a :: rest) :
    step s = readStep a { s with inputs := rest } := step_cons h

/-- Settles O38. -/
theorem hostReadReturns : Obligations.HostReadReturns := by
  intro s a rest h
  dsimp only
  rw [step_read h, ← State.statusWord_eq s]
  refine ⟨?cmd, ?status, ?fs, ?hlen, ?einfo, ?cap, ?cell, ?reserved⟩
  case cell =>
    intro i hi ha
    have hread := hostRead_cell (s := { s with inputs := rest }) hi ha
    exact ⟨fun v hv => readStep_of_some (hread.trans hv), fun hn => readStep_of_none (hread.trans hn)⟩
  case reserved => exact fun h6 ho => readStep_of_some (hostRead_reserved h6 ho)
  all_goals rintro rfl; exact readStep_of_some rfl

end Sys2Proof.Machine
end

section
/-! SUPPORT. The command word: its fields, which words are legal and what each stands for, and the rows of the table
(spec/30_encoding.md R91 to R101). -/

namespace Sys2Proof

/-! ### The fields of a command word -/

section
variable (bp : Bool) (mode op : BitVec 4)

/-- R91, R95: the number a command word is. -/
theorem commandWord_toNat : (commandWord bp mode op).toNat = bp.toNat * 256 + mode.toNat * 16 + op.toNat := by
  simp only [commandWord, BitVec.toNat_append, BitVec.toNat_ofBool]
  rw [← Nat.shiftLeft_add_eq_or_of_lt op.isLt, ← Nat.shiftLeft_add_eq_or_of_lt mode.isLt]
  simp [Nat.shiftLeft_eq]
  omega

@[simp] theorem opField_commandWord : opField (commandWord bp mode op) = op := BitVec.extractLsb'_append_eq_right

@[simp] theorem modeField_commandWord : modeField (commandWord bp mode op) = mode :=
  (BitVec.extractLsb'_append_eq_of_le (xhi := 0#23 ++ BitVec.ofBool bp ++ mode) (by decide)).trans
    BitVec.extractLsb'_append_eq_right

@[simp] theorem bpField_commandWord : bpField (commandWord bp mode op) = bp := by
  cases bp <;> simp [bpField, BitVec.getLsbD, commandWord_toNat, Nat.testBit_eq_decide_div_mod_eq] <;> omega

@[simp] theorem rsvField_commandWord : rsvField (commandWord bp mode op) = 0 := by
  apply BitVec.eq_of_toNat_eq
  have hbp := bp.toNat_lt
  simp [rsvField, commandWord_toNat, Nat.shiftRight_eq_div_pow]
  omega

end

/-- A word whose reserved bits are 0 is made of its other fields. -/
theorem commandWord_fields {w : Word} (h : rsvField w = 0) : commandWord (bpField w) (modeField w) (opField w) = w := by
  have hrsv : w.toNat / 512 = 0 := by
    have := congrArg BitVec.toNat h
    simp [rsvField, Nat.shiftRight_eq_div_pow] at this
    omega
  apply BitVec.eq_of_toNat_eq
  simp [commandWord_toNat, bpField, modeField, opField, BitVec.getLsbD, Nat.toNat_testBit, Nat.shiftRight_eq_div_pow]
  omega

theorem eq_commandWord {w : Word} {bp : Bool} {mode op : BitVec 4} (hrsv : rsvField w = 0) (hbp : bpField w = bp)
    (hmode : modeField w = mode) (hop : opField w = op) : w = commandWord bp mode op := by
  rw [← commandWord_fields hrsv, hbp, hmode, hop]

@[simp] theorem rsvField_and (v w : Word) : rsvField (v &&& w) = rsvField v &&& rsvField w := BitVec.extractLsb'_and

@[simp] theorem modeField_and (v w : Word) : modeField (v &&& w) = modeField v &&& modeField w := BitVec.extractLsb'_and

@[simp] theorem opField_and (v w : Word) : opField (v &&& w) = opField v &&& opField w := BitVec.extractLsb'_and

/-! ### The two families of modes -/

theorem hdrInstr_of_unrecognized {mode : BitVec 4} (h : unrecognizedMode mode = true) (bp : Bool) :
    hdrInstr mode bp = .hdrFallback bp mode := by
  revert mode bp; decide

theorem eomInstr_of_unrecognized {mode : BitVec 4} (h : unrecognizedMode mode = true) (bp : Bool) :
    eomInstr mode bp = .eomFallback bp mode := by
  revert mode bp; decide

theorem encode_hdrInstr (mode : BitVec 4) (bp : Bool) : encode (hdrInstr mode bp) = commandWord bp mode 4 := by
  revert mode bp; decide

theorem encode_eomInstr (mode : BitVec 4) (bp : Bool) : encode (eomInstr mode bp) = commandWord bp mode 5 := by
  revert mode bp; decide

theorem wellFormed_hdrInstr (mode : BitVec 4) (bp : Bool) : (hdrInstr mode bp).wellFormed = true := by
  revert mode bp; decide

theorem wellFormed_eomInstr (mode : BitVec 4) (bp : Bool) : (eomInstr mode bp).wellFormed = true := by
  revert mode bp; decide

/-! ### The legal words -/

/-- R95: the legal words, each with the instruction it stands for. -/
inductive LegalCommand : Word → Instr → Prop where
  | mark : LegalCommand (commandWord false 0 1) .mark
  | space : LegalCommand (commandWord false 0 2) .space
  | enc : LegalCommand (commandWord false 0 3) .enc
  | hdr (mode : BitVec 4) (bp : Bool) : LegalCommand (commandWord bp mode 4) (hdrInstr mode bp)
  | eom (mode : BitVec 4) (bp : Bool) : LegalCommand (commandWord bp mode 5) (eomInstr mode bp)

theorem plainInstr_eq_ok {w : Word} {i j : Instr} (h : plainInstr i w = .ok j) :
    modeField w = 0 ∧ bpField w = false ∧ j = i := by
  unfold plainInstr at h
  split at h
  · cases h
  · split at h
    · cases h
    · rename_i hmode hbp
      exact ⟨not_not.1 hmode, Bool.eq_false_of_not_eq_true hbp, (Decoded.ok.inj h).symm⟩

theorem legalCommand_of_plain {w : Word} {i j : Instr} {op : BitVec 4} (hrsv : rsvField w = 0) (hop : opField w = op)
    (hi : LegalCommand (commandWord false 0 op) i) (h : plainInstr i w = .ok j) : LegalCommand w j := by
  obtain ⟨hmode, hbp, rfl⟩ := plainInstr_eq_ok h
  rwa [eq_commandWord hrsv hbp hmode hop]

theorem legalCommand_of_op_four {w : Word} (hrsv : rsvField w = 0) (hop : opField w = 4) :
    LegalCommand w (hdrInstr (modeField w) (bpField w)) := by
  have h := LegalCommand.hdr (modeField w) (bpField w)
  rwa [← hop, commandWord_fields hrsv] at h

theorem legalCommand_of_op_five {w : Word} (hrsv : rsvField w = 0) (hop : opField w = 5) :
    LegalCommand w (eomInstr (modeField w) (bpField w)) := by
  have h := LegalCommand.eom (modeField w) (bpField w)
  rwa [← hop, commandWord_fields hrsv] at h

theorem legalCommand_of_decode {w : Word} {i : Instr} (h : decode w = .ok i) : LegalCommand w i := by
  unfold decode at h
  split at h
  · cases h
  · rename_i hne
    have hrsv : rsvField w = 0 := not_not.1 hne
    split at h
    case h_1 | h_7 => cases h
    case h_2 hop => exact legalCommand_of_plain hrsv (BitVec.eq_of_toNat_eq (y := 1#4) hop) .mark h
    case h_3 hop => exact legalCommand_of_plain hrsv (BitVec.eq_of_toNat_eq (y := 2#4) hop) .space h
    case h_4 hop => exact legalCommand_of_plain hrsv (BitVec.eq_of_toNat_eq (y := 3#4) hop) .enc h
    case h_5 hop => cases h; exact legalCommand_of_op_four hrsv (BitVec.eq_of_toNat_eq (y := 4#4) hop)
    case h_6 hop => cases h; exact legalCommand_of_op_five hrsv (BitVec.eq_of_toNat_eq (y := 5#4) hop)

theorem LegalCommand.decode_eq {w : Word} {i : Instr} (h : LegalCommand w i) : decode w = .ok i := by
  cases h <;> simp [decode, plainInstr]

/-- R91 to R96: the decoder accepts the legal words, each as the instruction it stands for. -/
theorem decode_eq_ok_iff {w : Word} {i : Instr} : decode w = .ok i ↔ LegalCommand w i :=
  ⟨legalCommand_of_decode, LegalCommand.decode_eq⟩

/-- R101: the word of a well-formed instruction is legal and stands for it. -/
theorem legalCommand_encode {i : Instr} (h : i.wellFormed = true) : LegalCommand (encode i) i := by
  cases i with
  | mark => exact .mark
  | space => exact .space
  | enc => exact .enc
  | hdrFallback bp mode => rw [← hdrInstr_of_unrecognized h, encode_hdrInstr]; exact .hdr mode bp
  | eomFallback bp mode => rw [← eomInstr_of_unrecognized h, encode_eomInstr]; exact .eom mode bp
  | hdrDefault bp => exact .hdr 0 bp
  | hdrSage bp => exact .hdr 1 bp
  | hdrDigital bp => exact .hdr 2 bp
  | hdrTrilithic bp => exact .hdr 3 bp
  | hdrNws bp => exact .hdr 4 bp
  | hdrBroadcaster bp => exact .hdr 5 bp
  | hdrNpas bp => exact .hdr 6 bp
  | hdrWea bp => exact .hdr 7 bp
  | eomDefault bp => exact .eom 0 bp
  | eomSage bp => exact .eom 1 bp
  | eomDigital bp => exact .eom 2 bp
  | eomTrilithic bp => exact .eom 3 bp
  | eomNws bp => exact .eom 4 bp
  | eomBroadcaster bp => exact .eom 5 bp
  | eomNpas bp => exact .eom 6 bp
  | eomWea bp => exact .eom 7 bp

/-- A legal word is exactly the word of its instruction, which the encoding can spell. -/
theorem LegalCommand.encode_eq {w : Word} {i : Instr} (h : LegalCommand w i) :
    encode i = w ∧ i.wellFormed = true := by
  cases h with
  | mark | space | enc => exact ⟨rfl, rfl⟩
  | hdr mode bp => exact ⟨encode_hdrInstr mode bp, wellFormed_hdrInstr mode bp⟩
  | eom mode bp => exact ⟨encode_eomInstr mode bp, wellFormed_eomInstr mode bp⟩

/-- Settles O1: the word of a well-formed instruction is a legal word, which the decoder accepts. -/
theorem decodeOfEncode : Obligations.DecodeOfEncode :=
  fun _ h => (legalCommand_encode h).decode_eq

/-- Settles O2. -/
theorem encodeOfDecode : Obligations.EncodeOfDecode :=
  fun _ _ h => (legalCommand_of_decode h).encode_eq

/-- R95: the three conditions on the fields. -/
theorem exists_legalCommand_iff_fields {w : Word} :
    (∃ i, LegalCommand w i) ↔
      rsvField w = 0 ∧ opField w ∈ [1#4, 2#4, 3#4, 4#4, 5#4]
        ∧ (opField w ∈ [4#4, 5#4] ∨ (modeField w = 0 ∧ bpField w = false)) := by
  constructor
  · rintro ⟨i, h⟩
    cases h <;> simp
  · rintro ⟨hrsv, hop, hplain⟩
    simp only [List.mem_cons, List.not_mem_nil, or_false] at hop
    have plain {op : BitVec 4} {i : Instr} (hop : opField w = op) (hne : op ∉ [4#4, 5#4])
        (hi : LegalCommand (commandWord false 0 op) i) : ∃ i, LegalCommand w i := by
      obtain ⟨hmode, hbp⟩ := hplain.resolve_left (hop ▸ hne)
      exact ⟨i, eq_commandWord hrsv hbp hmode hop ▸ hi⟩
    rcases hop with hop | hop | hop | hop | hop
    · exact plain hop (by decide) .mark
    · exact plain hop (by decide) .space
    · exact plain hop (by decide) .enc
    · exact ⟨_, legalCommand_of_op_four hrsv hop⟩
    · exact ⟨_, legalCommand_of_op_five hrsv hop⟩

/-- R95: a command word by the numbers of its fields. -/
theorem commandWord_eq_ofNat (bp : Bool) (mode op : BitVec 4) :
    commandWord bp mode op = BitVec.ofNat 32 (bp.toNat * 256 + mode.toNat * 16 + op.toNat) := by
  rw [← commandWord_toNat, BitVec.ofNat_toNat, BitVec.setWidth_eq]

theorem ofNat_eq_commandWord {mode bp : Nat} (hmode : mode ≤ 15) (hbp : bp ≤ 1) (op : BitVec 4) :
    BitVec.ofNat 32 (bp * 256 + mode * 16 + op.toNat) = commandWord (bp == 1) (BitVec.ofNat 4 mode) op := by
  have hbit : (bp == 1).toNat = bp := by interval_cases bp <;> rfl
  rw [commandWord_eq_ofNat, hbit, BitVec.toNat_ofNat, Nat.mod_eq_of_lt (by omega)]

/-- R95: the list of the legal words. -/
theorem exists_legalCommand_iff_listed {w : Word} :
    (∃ i, LegalCommand w i) ↔
      (w = 0x001 ∨ w = 0x002 ∨ w = 0x003
        ∨ ∃ op mode bp : Nat, (op = 4 ∨ op = 5) ∧ mode ≤ 15 ∧ bp ≤ 1
            ∧ w = BitVec.ofNat 32 (bp * 256 + mode * 16 + op)) := by
  constructor
  · rintro ⟨i, h⟩
    cases h with
    | mark => exact .inl rfl
    | space => exact .inr (.inl rfl)
    | enc => exact .inr (.inr (.inl rfl))
    | hdr mode bp =>
      exact .inr (.inr (.inr ⟨4, mode.toNat, bp.toNat, .inl rfl, by omega, Bool.toNat_le bp,
        commandWord_eq_ofNat bp mode 4⟩))
    | eom mode bp =>
      exact .inr (.inr (.inr ⟨5, mode.toNat, bp.toNat, .inr rfl, by omega, Bool.toNat_le bp,
        commandWord_eq_ofNat bp mode 5⟩))
  · rintro (rfl | rfl | rfl | ⟨op, mode, bp, rfl | rfl, hmode, hbp, rfl⟩)
    · exact ⟨_, .mark⟩
    · exact ⟨_, .space⟩
    · exact ⟨_, .enc⟩
    · have hw := ofNat_eq_commandWord hmode hbp 4
      exact ⟨_, hw ▸ LegalCommand.hdr _ _⟩
    · have hw := ofNat_eq_commandWord hmode hbp 5
      exact ⟨_, hw ▸ LegalCommand.eom _ _⟩

/-- Settles O3: the conditions and the list by the legal words, the count by evaluating R95's predicate. -/
theorem legalWordsAreTheDecodedOnes : Obligations.LegalWordsAreTheDecodedOnes := by
  refine ⟨fun w => ?_, by decide +kernel⟩
  simp only [decode_eq_ok_iff]
  exact ⟨exists_legalCommand_iff_fields, exists_legalCommand_iff_listed⟩

/-! ### The rows of the table -/

/-- R101: the `MODE` bits of the match column: 8 stands for every unrecognized mode. -/
def rowMode (mode : BitVec 4) : BitVec 4 := if unrecognizedMode mode then 8 else mode

/-- R101: the mask column of the `HDR` and `EOM` rows, by the row's `MODE` bits. -/
def modeRowMask (row : BitVec 4) : Word := if row = 8 then 0xFFFFFE8F else 0xFFFFFEFF

/-- The three shapes of a row: one exact word, or a `HDR` or `EOM` row of a mode. -/
inductive RowShape (i : Instr) : Prop where
  | plain (hmask : rowMask i = BitVec.allOnes 32) (hd : decode (rowMatch i) = .ok i)
  | hdr (mode : BitVec 4) (hmask : rowMask i = modeRowMask (rowMode mode))
      (hmatch : rowMatch i = commandWord false (rowMode mode) 4)
  | eom (mode : BitVec 4) (hmask : rowMask i = modeRowMask (rowMode mode))
      (hmatch : rowMatch i = commandWord false (rowMode mode) 5)

theorem rowShape (i : Instr) : RowShape i := by
  cases i with
  | mark | space | enc => exact .plain rfl rfl
  | hdrDefault => exact .hdr 0 rfl rfl
  | hdrSage => exact .hdr 1 rfl rfl
  | hdrDigital => exact .hdr 2 rfl rfl
  | hdrTrilithic => exact .hdr 3 rfl rfl
  | hdrNws => exact .hdr 4 rfl rfl
  | hdrBroadcaster => exact .hdr 5 rfl rfl
  | hdrNpas => exact .hdr 6 rfl rfl
  | hdrWea => exact .hdr 7 rfl rfl
  | hdrFallback => exact .hdr 8 rfl rfl
  | eomDefault => exact .eom 0 rfl rfl
  | eomSage => exact .eom 1 rfl rfl
  | eomDigital => exact .eom 2 rfl rfl
  | eomTrilithic => exact .eom 3 rfl rfl
  | eomNws => exact .eom 4 rfl rfl
  | eomBroadcaster => exact .eom 5 rfl rfl
  | eomNpas => exact .eom 6 rfl rfl
  | eomWea => exact .eom 7 rfl rfl
  | eomFallback => exact .eom 8 rfl rfl

theorem row_hdrInstr (mode : BitVec 4) (bp : Bool) :
    rowMask (hdrInstr mode bp) = modeRowMask (rowMode mode)
    ∧ rowMatch (hdrInstr mode bp) = commandWord false (rowMode mode) 4 := by
  revert mode bp; decide

theorem row_eomInstr (mode : BitVec 4) (bp : Bool) :
    rowMask (eomInstr mode bp) = modeRowMask (rowMode mode)
    ∧ rowMatch (eomInstr mode bp) = commandWord false (rowMode mode) 5 := by
  revert mode bp; decide

theorem modeRowMask_fields (mode : BitVec 4) :
    rsvField (modeRowMask (rowMode mode)) = BitVec.allOnes 23
    ∧ opField (modeRowMask (rowMode mode)) = BitVec.allOnes 4
    ∧ ∀ m, m &&& modeField (modeRowMask (rowMode mode)) = rowMode mode → rowMode m = rowMode mode := by
  revert mode; decide

/-- R101: a word that selects a `HDR` or `EOM` row has the row's `OP`, and a mode of the row. -/
theorem fields_of_selects {w : Word} {mode op : BitVec 4}
    (h : w &&& modeRowMask (rowMode mode) = commandWord false (rowMode mode) op) :
    rsvField w = 0 ∧ opField w = op ∧ rowMode (modeField w) = rowMode mode := by
  obtain ⟨hrsvMask, hopMask, hmode⟩ := modeRowMask_fields mode
  have hfields := And.intro (congrArg rsvField h) (And.intro (congrArg opField h) (congrArg modeField h))
  simp only [rsvField_and, opField_and, modeField_and, hrsvMask, hopMask, BitVec.and_allOnes, rsvField_commandWord,
    opField_commandWord, modeField_commandWord] at hfields
  exact hfields.imp_right (And.imp_right (hmode _))

/-- R101: a word that a row selects decodes to an instruction of that row. -/
theorem decode_of_selects {w : Word} {i : Instr} (h : w &&& rowMask i = rowMatch i) :
    ∃ j, decode w = .ok j ∧ rowMask j = rowMask i ∧ rowMatch j = rowMatch i := by
  cases rowShape i with
  | plain hmask hd =>
    rw [hmask, BitVec.and_allOnes] at h
    exact ⟨i, by rw [h, hd], rfl, rfl⟩
  | hdr mode hmask hmatch =>
    rw [hmask, hmatch] at h ⊢
    obtain ⟨hrsv, hop, hmode⟩ := fields_of_selects h
    obtain ⟨hmask', hmatch'⟩ := row_hdrInstr (modeField w) (bpField w)
    rw [hmode] at hmask' hmatch'
    exact ⟨_, (legalCommand_of_op_four hrsv hop).decode_eq, hmask', hmatch'⟩
  | eom mode hmask hmatch =>
    rw [hmask, hmatch] at h ⊢
    obtain ⟨hrsv, hop, hmode⟩ := fields_of_selects h
    obtain ⟨hmask', hmatch'⟩ := row_eomInstr (modeField w) (bpField w)
    rw [hmode] at hmask' hmatch'
    exact ⟨_, (legalCommand_of_op_five hrsv hop).decode_eq, hmask', hmatch'⟩

/-- R101: the word of a well-formed instruction selects its own row. -/
theorem encode_selects_row (i : Instr) : Laws.RowMatch.Statement i := by
  cases i with
  | mark => exact Laws.RowMatch.mark
  | space => exact Laws.RowMatch.space
  | enc => exact Laws.RowMatch.enc
  | hdrDefault bp => exact Laws.RowMatch.hdrDefault bp
  | hdrSage bp => exact Laws.RowMatch.hdrSage bp
  | hdrDigital bp => exact Laws.RowMatch.hdrDigital bp
  | hdrTrilithic bp => exact Laws.RowMatch.hdrTrilithic bp
  | hdrNws bp => exact Laws.RowMatch.hdrNws bp
  | hdrBroadcaster bp => exact Laws.RowMatch.hdrBroadcaster bp
  | hdrNpas bp => exact Laws.RowMatch.hdrNpas bp
  | hdrWea bp => exact Laws.RowMatch.hdrWea bp
  | hdrFallback bp mode => exact Laws.RowMatch.hdrFallback bp mode
  | eomDefault bp => exact Laws.RowMatch.eomDefault bp
  | eomSage bp => exact Laws.RowMatch.eomSage bp
  | eomDigital bp => exact Laws.RowMatch.eomDigital bp
  | eomTrilithic bp => exact Laws.RowMatch.eomTrilithic bp
  | eomNws bp => exact Laws.RowMatch.eomNws bp
  | eomBroadcaster bp => exact Laws.RowMatch.eomBroadcaster bp
  | eomNpas bp => exact Laws.RowMatch.eomNpas bp
  | eomWea bp => exact Laws.RowMatch.eomWea bp
  | eomFallback bp mode => exact Laws.RowMatch.eomFallback bp mode

theorem selects_of_decode {w : Word} {i : Instr} (h : decode w = .ok i) : w &&& rowMask i = rowMatch i := by
  obtain ⟨rfl, hwf⟩ := (legalCommand_of_decode h).encode_eq
  exact encode_selects_row i hwf

/-- Settles O4: rows that select one word are both the row of the instruction it decodes to. -/
theorem rowsSelectByMaskAndMatch : Obligations.RowsSelectByMaskAndMatch := by
  intro w
  refine ⟨fun i h => selects_of_decode h, fun i j hi hj => ?_, fun hnone => ?_, fun i h => decode_of_selects h⟩
  · obtain ⟨k, hk, hmask, hmatch⟩ := decode_of_selects hi
    obtain ⟨l, hl, hmask', hmatch'⟩ := decode_of_selects hj
    obtain rfl : k = l := Decoded.ok.inj (hk.symm.trans hl)
    exact ⟨hmask.symm.trans hmask', hmatch.symm.trans hmatch'⟩
  · cases hd : decode w with
    | ok i => exact absurd (selects_of_decode hd) (hnone i)
    | rejected why => exact ⟨why, rfl⟩

/-- Settles O5. -/
theorem tableWordsDecode : Obligations.TableWordsDecode :=
  ⟨LegalCommand.mark.decode_eq, (LegalCommand.hdr 1 true).decode_eq, (LegalCommand.hdr 12 false).decode_eq,
    (LegalCommand.eom 5 false).decode_eq, rfl⟩

end Sys2Proof
end

section
/-! SUPPORT. The token words: their fields, what the sink reads from them, the tag, and what the tokens of a segment can
carry (spec/30_encoding.md R92, R97, R98). -/

namespace Sys2Proof.Machine

/-! ### The fields of a token word -/

section
variable (t : Token)

/-- R97: the number a token word is. -/
theorem Token.encode_toNat :
    t.encode.toNat = t.rate.toNat * 2 ^ 32 + t.dur.toNat * 2 ^ 16 + t.bp.toNat * 4 + t.kind.toNat := by
  simp only [Token.encode, BitVec.toNat_append, BitVec.toNat_ofBool]
  rw [← Nat.shiftLeft_add_eq_or_of_lt t.kind.isLt, ← Nat.shiftLeft_add_eq_or_of_lt t.bp.toNat_lt,
    ← Nat.shiftLeft_add_eq_or_of_lt (0#13).isLt, ← Nat.shiftLeft_add_eq_or_of_lt t.dur.isLt]
  simp [Nat.shiftLeft_eq]
  omega

@[simp] theorem Token.encode_kind : t.encode.extractLsb' 0 2 = t.kind := BitVec.extractLsb'_append_eq_right

theorem Token.encode_bp : t.encode.getLsbD 2 = t.bp := by
  have hkind := t.kind.isLt
  cases h : t.bp <;> simp [BitVec.getLsbD, t.encode_toNat, h, Nat.testBit_eq_decide_div_mod_eq] <;> omega

/-- R97: the fields above the tag. -/
theorem Token.encode_high_fields :
    t.encode.extractLsb' 3 13 = 0#13 ∧ t.encode.extractLsb' 16 16 = t.dur ∧ t.encode.extractLsb' 32 32 = t.rate := by
  have hkind := t.kind.isLt
  have hbp := t.bp.toNat_lt
  refine ⟨?_, ?_, ?_⟩ <;> apply BitVec.eq_of_toNat_eq <;> simp [t.encode_toNat, Nat.shiftRight_eq_div_pow] <;> omega

@[simp] theorem Token.encode_zeros : t.encode.extractLsb' 3 13 = 0#13 := t.encode_high_fields.1

@[simp] theorem Token.encode_dur : t.encode.extractLsb' 16 16 = t.dur := t.encode_high_fields.2.1

@[simp] theorem Token.encode_rate : t.encode.extractLsb' 32 32 = t.rate := t.encode_high_fields.2.2

/-- The sink reads back the token that was sent. -/
theorem Token.decode_encode : Token.decode t.encode = some t := by
  simp only [Token.decode, Token.encode_kind, Token.encode_zeros, Token.encode_dur, Token.encode_rate, Token.encode_bp]
  cases t <;> rfl

end

/-- Settles O6: the fields of any token's word, read for each kind. -/
theorem tokenWordFields : Obligations.TokenWordFields := by
  intro r d bp
  have fields (t : Token) (h : t.bp = bp) (h' : t.rate = r) :
      t.encode.getLsbD 2 = bp ∧ t.encode.extractLsb' 3 13 = 0#13 ∧ t.encode.extractLsb' 32 32 = r
        ∧ Token.decode t.encode = some t :=
    ⟨t.encode_bp.trans h, t.encode_zeros, t.encode_rate.trans h', t.decode_encode⟩
  have kindDur (t : Token) : t.encode.extractLsb' 0 2 = t.kind ∧ t.encode.extractLsb' 16 16 = t.dur :=
    ⟨t.encode_kind, t.encode_dur⟩
  refine ⟨?_, kindDur (.space r bp), kindDur (.mark r bp), kindDur (.sil d r bp), kindDur (.fin r bp), rfl, rfl⟩
  simp only [List.forall_mem_cons, List.not_mem_nil, false_implies, implies_true, and_true]
  exact ⟨fields _ rfl rfl, fields _ rfl rfl, fields _ rfl rfl, fields _ rfl rfl⟩

/-! ### What the tokens of a segment carry -/

theorem toneRate_eq (m : Mode) (fs : Word) : toneRate m fs = if m = .broadcaster then 44100 else fs := by
  cases m <;> rfl

/-- R164: how long a silence of a segment is. -/
theorem gapAfter_values {k : SegmentKind} {m : Mode} {n ms : Nat} (h : gapAfter k m n = some ms) :
    ms = 1000 ∨ ms = 850 ∨ ms = 150 := by
  have hgap : (modeRow m).gapMs = 1000 ∨ (modeRow m).gapMs = 850 := by cases m <;> decide
  have htail : ∀ d ∈ (modeRow m).tailHdr, d = 1000 ∨ d = 150 := by cases m <;> decide
  have htail' : ∀ d ∈ (modeRow m).tailEom, d = 1000 := by cases m <;> decide
  unfold gapAfter at h
  split at h
  · cases h; omega
  · cases k with
    | hdr => have := htail ms h; omega
    | eom => have := htail' ms h; omega

/-- R160: a token of a segment is a bit tone or one of its silences. -/
theorem frameSegment_mem {t : Token} {k : SegmentKind} {m : Mode} {hdr : List Byte} {fs : Word} {bp : Bool}
    (h : t ∈ frameSegment k m hdr fs bp) :
    (∃ b, t = tone b (toneRate m fs) bp) ∨ ∃ n ms, gapAfter k m n = some ms ∧ t = .sil (BitVec.ofNat 16 ms) fs bp := by
  obtain ⟨n, -, h⟩ := List.mem_flatMap.1 h
  rcases List.mem_append.1 h with h | h
  · exact .inl (encodeBits_mem h)
  · unfold gap at h
    split at h
    · rename_i ms hms; exact .inr ⟨n, ms, hms, List.mem_singleton.1 h⟩
    · cases h

@[simp] theorem tone_rate (b : Bool) (r : Word) (bp : Bool) : (tone b r bp).rate = r := by cases b <;> rfl

@[simp] theorem tone_bp (b : Bool) (r : Word) (bp : Bool) : (tone b r bp).bp = bp := by cases b <;> rfl

/-- Settles O11. -/
theorem segmentTokenValues : Obligations.SegmentTokenValues := by
  intro k m hdr fs bp t ht
  rcases frameSegment_mem ht with ⟨b, rfl⟩ | ⟨n, ms, hms, rfl⟩
  · exact .inl ⟨tone_isTone _ _ _, (tone_rate _ _ _).trans (toneRate_eq m fs), tone_bp _ _ _⟩
  · refine .inr ⟨_, rfl, ?_⟩
    rcases gapAfter_values hms with rfl | rfl | rfl
    exacts [.inl rfl, .inr (.inl rfl), .inr (.inr rfl)]

/-! ### The band-pass tag -/

/-- The tag's bit set in a word made of the bits above it, the tag and the two bits below. -/
theorem append_or_bit_two (hi : BitVec 61) (b : Bool) (kind : BitVec 2) :
    hi ++ BitVec.ofBool b ++ kind ||| 4#(61 + 1 + 2) = hi ++ BitVec.ofBool true ++ kind := by
  have h4 : 4#(61 + 1 + 2) = 0#61 ++ BitVec.ofBool true ++ 0#2 := rfl
  have hb : BitVec.ofBool b ||| BitVec.ofBool true = BitVec.ofBool true := by cases b <;> rfl
  rw [h4, BitVec.or_append, BitVec.or_append, BitVec.or_zero, BitVec.or_zero, hb]

/-- R92, R97: tagging a token sets bit 2 of its word. -/
theorem Token.encode_withBp_true (t : Token) : (t.withBp true).encode = t.encode ||| 4#64 := by
  have h : t.encode ||| 4#64 = _ := append_or_bit_two (t.rate ++ t.dur ++ 0#13) t.bp t.kind
  rw [h]
  cases t <;> rfl

@[simp] theorem withBp_tone (b : Bool) (r : Word) (bp bp' : Bool) : (tone b r bp).withBp bp' = tone b r bp' := by
  cases b <;> rfl

theorem encodeBits_withBp (l : List Byte) (r : Word) (bp bp' : Bool) :
    (encodeBits l r bp).map (Token.withBp bp') = encodeBits l r bp' := by
  induction l with
  | nil => rfl
  | cons b rest ih => simp [ih, Function.comp_def]

theorem gap_withBp (k : SegmentKind) (m : Mode) (n : Nat) (fs : Word) (bp bp' : Bool) :
    (gap k m n fs bp).map (Token.withBp bp') = gap k m n fs bp' := by
  unfold gap
  split <;> rfl

theorem frameSegment_withBp (k : SegmentKind) (m : Mode) (hdr : List Byte) (fs : Word) (bp bp' : Bool) :
    (frameSegment k m hdr fs bp).map (Token.withBp bp') = frameSegment k m hdr fs bp' := by
  simp only [frameSegment, List.map_flatMap, List.map_append, encodeBits_withBp, gap_withBp]

theorem frameSegment_bp {t : Token} {k : SegmentKind} {m : Mode} {hdr : List Byte} {fs : Word} {bp : Bool}
    (h : t ∈ frameSegment k m hdr fs bp) : t.bp = bp := by
  rcases frameSegment_mem h with ⟨b, rfl⟩ | ⟨n, ms, -, rfl⟩
  · exact tone_bp _ _ _
  · rfl

/-- R100: the token list of a command that sends a segment. -/
def segmentTokens (k : SegmentKind) (m : Mode) (hdr : List Byte) (fs : Word) (bp : Bool) : List Token :=
  frameSegment k m hdr fs bp ++ [.fin fs bp]

/-- R94, R100: the tokens of the `HDR` command of each of the 16 modes. -/
theorem tokensOf_hdrInstr (mode : BitVec 4) (bp : Bool) (s : State) :
    tokensOf (hdrInstr mode bp) s
      = s.headerCells.map fun cells => segmentTokens .hdr (effMode mode) (cells.map cellByte) s.fs bp := by
  unfold hdrInstr
  split
  case h_9 => rfl
  all_goals rename_i h; simp only [effMode, h]; rfl

/-- R94, R100: the tokens of the `EOM` command of each of the 16 modes. -/
theorem tokensOf_eomInstr (mode : BitVec 4) (bp : Bool) (s : State) :
    tokensOf (eomInstr mode bp) s = some (segmentTokens .eom (effMode mode) [] s.fs bp) := by
  unfold eomInstr
  split
  case h_9 => rfl
  all_goals rename_i h; simp only [effMode, h]; rfl

section
variable (k : SegmentKind) (m : Mode) (hdr : List Byte) (fs : Word)

theorem segmentTokens_bit_two (bp : Bool) :
    ∀ w ∈ (segmentTokens k m hdr fs bp).map Token.encode, w.getLsbD 2 = bp := by
  intro w hw
  obtain ⟨t, ht, rfl⟩ := List.mem_map.1 hw
  rw [Token.encode_bp]
  rcases List.mem_append.1 ht with ht | ht
  · exact frameSegment_bp ht
  · obtain rfl := List.mem_singleton.1 ht; rfl

theorem segmentTokens_tagged :
    (segmentTokens k m hdr fs true).map Token.encode
      = ((segmentTokens k m hdr fs false).map Token.encode).map (· ||| 4#64) := by
  have h : segmentTokens k m hdr fs true = (segmentTokens k m hdr fs false).map (Token.withBp true) := by
    simp only [segmentTokens, List.map_append, frameSegment_withBp]; rfl
  simp only [h, List.map_map, Function.comp_def, Token.encode_withBp_true]

end

/-- Settles O10: both forms send one segment and `END`, whose tokens differ in their tag alone. -/
theorem bandpassTagIsBitTwo : Obligations.BandpassTagIsBitTwo := by
  intro mode s command hc tagged untagged ht hu
  obtain ⟨k, m, hdr, rfl, rfl⟩ : ∃ k m hdr,
      tagged = segmentTokens k m hdr s.fs true ∧ untagged = segmentTokens k m hdr s.fs false := by
    simp only [List.mem_cons, List.not_mem_nil, or_false] at hc
    rcases hc with rfl | rfl
    · rw [tokensOf_hdrInstr] at ht hu
      obtain ⟨cells, hcells, rfl⟩ := Option.map_eq_some_iff.1 ht
      rw [hcells] at hu
      exact ⟨_, _, _, rfl, (Option.some.inj hu).symm⟩
    · rw [tokensOf_eomInstr] at ht hu
      exact ⟨_, _, _, (Option.some.inj ht).symm, (Option.some.inj hu).symm⟩
  exact ⟨segmentTokens_tagged k m hdr s.fs, segmentTokens_bit_two k m hdr s.fs true,
    segmentTokens_bit_two k m hdr s.fs false⟩

end Sys2Proof.Machine
end

section
/-! SUPPORT. The host script: the poll loop, loading a header, and a whole command under `WAIT`
(spec/30_encoding.md R103, R104; spec/70_reset_and_hazards.md R315, R316). -/

namespace Sys2Proof.Machine

/-! ### Runs of some length -/

/-- Some run leads from one state to the other. -/
def Reaches (s t : State) : Prop := ∃ n, runFor n s = .next t

theorem runFor_trans {s t u : State} {m n : Nat} (h : runFor m s = .next t) (h' : runFor n t = .next u) :
    runFor (m + n) s = .next u := by
  rw [runFor_add n h, h']

theorem runFor_one {s t : State} (h : step s = .next t) : runFor 1 s = .next t := by
  rw [runFor_succ 0 h, runFor_zero]

theorem Reaches.trans {s t u : State} (h : Reaches s t) (h' : Reaches t u) : Reaches s u := by
  obtain ⟨m, hm⟩ := h
  obtain ⟨n, hn⟩ := h'
  exact ⟨m + n, runFor_trans hm hn⟩

theorem Reaches.of_step {s t : State} (h : step s = .next t) : Reaches s t := ⟨1, runFor_one h⟩

/-! ### The poll loop -/

/-- R62: bit 0 of `STATUS` is `BUSY`. -/
theorem State.statusWord_busy (s : State) : s.statusWord.getLsbD 0 = s.busy := by
  have h : s.statusWord.getLsbD 0 = (BitVec.ofBool s.busy).getLsbD 0 := BitVec.getLsbD_append
  simpa using h

/-- Settles O43. -/
theorem waitPollsUntilIdle : Obligations.WaitPollsUntilIdle := by
  intro s rest hi
  rw [step_cons hi, State.statusWord_busy, agentStep, pollStep]
  change Host.Outcome.next (if s.busy then _ else _) = _
  cases s.busy <;> rfl

theorem step_wait_idle {s : State} {rest : List Input} (hi : s.inputs = .wait :: rest) (hp : s.phase = .idle) :
    step s = .next { s with inputs := rest, reads := s.reads ++ [s.statusWord] } := by
  rw [waitPollsUntilIdle s rest hi, State.statusWord_busy, (State.not_busy_iff s).2 hp]
  rfl

/-- R103: while the block is busy, a poll and the turn it gives the sequencer come back to the `WAIT`. -/
theorem reaches_wait_turn {s u : State} {rest : List Input} (hi : s.inputs = .wait :: rest) (hp : s.phase ≠ .idle)
    (hu : sequencerTurn (s.logRead s.statusWord) = .next u) : Reaches s u := by
  have hpoll := waitPollsUntilIdle s rest hi
  rw [State.statusWord_busy, (State.busy_iff s).2 hp, if_pos rfl, ← hi] at hpoll
  have hturn : step { s.logRead s.statusWord with inputs := .turn :: s.inputs } = .next u :=
    (step_cons (x := .turn) (rest := s.inputs) rfl).trans hu
  exact (Reaches.of_step hpoll).trans (.of_step hturn)

/-- The state of a block that has sent its last token and ended the `WAIT`, told from the one at token `TPC`. -/
def State.waited (s : State) (toks : List Token) (rest : List Input) (reads : List Word) : State :=
  { s with
    phase := .idle, tpc := 0, done := true, inputs := rest, reads := reads,
    sunk := s.sunk ++ (toks.drop s.tpc.toNat).map Token.encode }

section
variable {s : State} {toks : List Token} (rest : List Input) (reads : List Word) (v : Word)

theorem State.waited_last (hl : s.tpc.toNat < toks.length) (hn : s.tpc.toNat + 1 = toks.length) :
    s.waited toks rest reads
      = { (s.logRead v).complete toks[s.tpc.toNat] with inputs := rest, reads := reads } := by
  rw [State.waited, List.drop_eq_getElem_cons hl, List.drop_eq_nil_of_le hn.ge]
  rfl

theorem State.waited_advance (hl : s.tpc.toNat < toks.length) (hlt : toks.length < 2 ^ 32) :
    ((s.logRead v).advance toks[s.tpc.toNat]).waited toks rest reads = s.waited toks rest reads := by
  have hnext : ((s.logRead v).advance toks[s.tpc.toNat]).tpc.toNat = s.tpc.toNat + 1 := tpc_succ hl hlt
  rw [State.waited, State.waited, hnext, List.drop_eq_getElem_cons hl, List.map_cons, State.advance_sunk,
    List.append_assoc]
  rfl

end

theorem reaches_wait_transfer {i : Instr} {toks : List Token} {rest : List Input} {s u : State} (hp : s.phase = .run)
    (hd : decode s.cmd = .ok i) (hi : s.inputs = .wait :: rest) (hk : tokensOf i s = some toks)
    (hu : transfer toks (s.logRead s.statusWord) = .next u) : Reaches s u :=
  reaches_wait_turn hi (by simp [hp])
    ((sequencerTurn_run (s := s.logRead s.statusWord) hp hd ((tokensOf_congr rfl rfl rfl).trans hk)).trans hu)

/-- In `RUN` with the sink accepting, a `WAIT` ends when every token still to come is sent: by induction on the number of
tokens left, each round but the last advancing. -/
theorem reaches_wait_run {i : Instr} {toks : List Token} {rest : List Input} (hlt : toks.length < 2 ^ 32) (n : Nat)
    {s : State} (hp : s.phase = .run) (hd : decode s.cmd = .ok i) (hi : s.inputs = .wait :: rest)
    (hr : s.outReady = true) (hk : tokensOf i s = some toks) (hn : s.tpc.toNat + (n + 1) = toks.length) :
    ∃ reads, Reaches s (s.waited toks rest reads) := by
  induction n generalizing s with
  | zero =>
    have hl : s.tpc.toNat < toks.length := by omega
    have hsent := reaches_wait_transfer hp hd hi hk (transfer_last hr (List.getElem?_eq_getElem hl) hn)
    have hend := step_wait_idle (s := (s.logRead s.statusWord).complete toks[s.tpc.toNat]) hi rfl
    exact ⟨_, State.waited_last rest _ s.statusWord hl hn ▸ hsent.trans (.of_step hend)⟩
  | succ n ih =>
    have hl : s.tpc.toNat < toks.length := by omega
    have hmore : s.tpc.toNat + 1 ≠ toks.length := by omega
    have hsent := reaches_wait_transfer hp hd hi hk (transfer_middle hr (List.getElem?_eq_getElem hl) hmore)
    have hnext : (s.tpc + 1).toNat = s.tpc.toNat + 1 := tpc_succ hl hlt
    obtain ⟨reads, hrest⟩ := ih (s := (s.logRead s.statusWord).advance toks[s.tpc.toNat]) hp hd hi hr
      ((tokensOf_congr rfl rfl rfl).trans hk) (by rw [State.advance_tpc, State.logRead_tpc]; omega)
    exact ⟨reads, State.waited_advance rest reads s.statusWord hl hlt ▸ hsent.trans hrest⟩

/-- R40, R103, R315: under `WAIT` and with the sink accepting, a checked command runs to its end. -/
theorem reaches_wait_checked {s : State} {i : Instr} {toks : List Token} {rest : List Input} (hp : s.phase = .check)
    (htpc : s.tpc = 0) (hd : decode s.cmd = .ok i) (hi : s.inputs = .wait :: rest) (hr : s.outReady = true)
    (hcap : s.hmax ≤ 65535) (hc : Checked i s) (hk : tokensOf i s = some toks) :
    ∃ reads, Reaches s (s.waited toks rest reads) := by
  obtain ⟨n, hn⟩ : ∃ n, toks.length = n + 1 := Nat.exists_eq_succ_of_ne_zero (by simpa using tokensOf_ne_nil hk)
  have hcheck : Reaches s (s.logRead s.statusWord).enterRun :=
    reaches_wait_turn hi (by simp [hp]) (sequencerTurn_checked (s := s.logRead s.statusWord) hp hd fun h => by
      obtain ⟨hdr, hh⟩ := hc h
      exact ⟨hdr, hh.congr rfl rfl rfl⟩)
  obtain ⟨reads, hrun⟩ := reaches_wait_run (s := (s.logRead s.statusWord).enterRun) (tokensOf_length_lt hcap hc hk) n rfl
    hd hi hr ((tokensOf_congr rfl rfl rfl).trans hk) (by simp [hn])
  have hwaited : (s.logRead s.statusWord).enterRun.waited toks rest reads = s.waited toks rest reads := by
    simp only [State.waited, State.enterRun, State.logRead, htpc]
  exact ⟨reads, hwaited ▸ hcheck.trans hrun⟩

/-! ### Loading a header -/

/-- The memory after these cells are written from `start` on. -/
def Memory.writeRange : Memory → Nat → List Word → Memory
  | m, _, [] => m
  | m, start, c :: rest => Memory.writeRange (Memory.write m start c) (start + 1) rest

theorem Memory.wf_writeRange {m : Memory} (h : Memory.wf m = true) (start : Nat) (l : List Word) :
    Memory.wf (Memory.writeRange m start l) = true := by
  induction l generalizing m start with
  | nil => exact h
  | cons c rest ih => exact ih (Memory.wf_write h start c) (start + 1)

theorem Memory.read_writeRange_outside (m : Memory) {start j : Nat} {l : List Word}
    (h : j < start ∨ start + l.length ≤ j) : Memory.read (Memory.writeRange m start l) j = Memory.read m j := by
  induction l generalizing m start with
  | nil => rfl
  | cons c rest ih =>
    rw [List.length_cons] at h
    rw [Memory.writeRange, ih _ (by omega), Memory.read_write_other m c (by omega)]

theorem Memory.readRange_writeRange (m : Memory) (start : Nat) (l : List Word) :
    Memory.readRange (Memory.writeRange m start l) start l.length = some l := by
  induction l generalizing m start with
  | nil => rfl
  | cons c rest ih =>
    have hread : Memory.read (Memory.writeRange m start (c :: rest)) start = some c := by
      rw [Memory.writeRange, Memory.read_writeRange_outside _ (.inl (Nat.lt_succ_self start)), Memory.read_write_same]
    simp only [List.length_cons, Memory.readRange, hread]
    rw [Memory.writeRange, ih]

/-- R61: cell `i` stands at word address 0x10000 + `i`. -/
theorem cellAddr_toNat {i : Nat} (h : i ≤ 0xFFFF) : (cellAddr i).toNat = 0x10000 + i := by
  rw [cellAddr, BitVec.toNat_ofNat]
  omega

theorem step_write_cell {s : State} {i : Nat} {v : Word} {rest : List Input} (hp : s.phase = .idle) (hi : i < s.hmax)
    (hcap : s.hmax ≤ 65535) (hin : s.inputs = .write (cellAddr i) v :: rest) :
    step s = .next { s with inputs := rest, hbuf := Memory.write s.hbuf i v } := by
  rw [step_write hin, hostWrite_cell (s := { s with inputs := rest }) hi (cellAddr_toNat (by omega)), if_pos hp]
  rfl

theorem step_write_hlen {s : State} {v : Word} {rest : List Input} (hp : s.phase = .idle)
    (hin : s.inputs = .write 3 v :: rest) : step s = .next { s with inputs := rest, hlen := v } := by
  rw [step_write hin, hostWrite_hlen, if_pos hp]
  rfl

theorem step_write_fs {s : State} {v : Word} {rest : List Input} (hp : s.phase = .idle)
    (hin : s.inputs = .write 2 v :: rest) : step s = .next { s with inputs := rest, fs := v } := by
  rw [step_write hin, hostWrite_fs, if_pos hp]
  rfl

/-- R63: the cell writes of `LOADHDR`, one step each. -/
theorem runFor_loadCells {l : List Word} {start : Nat} {rest : List Input} {s : State} (hp : s.phase = .idle)
    (hl : start + l.length ≤ s.hmax) (hcap : s.hmax ≤ 65535) (hin : s.inputs = loadCells start l ++ rest) :
    runFor l.length s = .next { s with inputs := rest, hbuf := Memory.writeRange s.hbuf start l } := by
  induction l generalizing start s with
  | nil => simp only [loadCells, List.nil_append] at hin; subst hin; rfl
  | cons c l ih =>
    rw [List.length_cons] at hl
    rw [List.length_cons, runFor_succ _ (step_write_cell hp (by omega) hcap hin)]
    exact ih hp (show start + 1 + l.length ≤ s.hmax by omega) hcap rfl

/-- The state after `LOADHDR` of these code points. -/
def State.loadedWith (s : State) (l : List Word) (rest : List Input) : State :=
  { s with inputs := rest, hlen := BitVec.ofNat 32 l.length, hbuf := Memory.writeRange s.hbuf 0 l }

/-- R103: `LOADHDR`, one step per cell and one for `HLEN`. -/
theorem runFor_loadHdr {l : List Word} {rest : List Input} {s : State} (hp : s.phase = .idle) (hl : l.length ≤ s.hmax)
    (hcap : s.hmax ≤ 65535) (hin : s.inputs = loadHdr l ++ rest) :
    runFor (l.length + 1) s = .next (s.loadedWith l rest) := by
  rw [loadHdr, List.append_assoc] at hin
  exact runFor_trans (runFor_loadCells hp (by omega) hcap hin) (runFor_one (step_write_hlen hp rfl))

/-- R24, R67: the header that was loaded is the one the command reads. -/
theorem headerCells_loadedWith {l : List Word} (rest : List Input) (s : State) (hl : l.length ≤ 65535) :
    (s.loadedWith l rest).headerCells = some l := by
  have hlen : (s.loadedWith l rest).hlen.toNat = l.length := by
    rw [State.loadedWith, BitVec.toNat_ofNat]
    omega
  rw [State.headerCells, hlen]
  exact Memory.readRange_writeRange s.hbuf 0 l

/-- Settles O53: by induction on the code points, one step each. -/
theorem loadHdrLoadsTheHeader : Obligations.LoadHdrLoadsTheHeader := by
  intro s l rest hp hwf hl hcap hin
  exact ⟨_, runFor_loadHdr hp hl hcap hin, headerCells_loadedWith rest s (hl.trans hcap), rfl,
    fun j hj => Memory.read_writeRange_outside s.hbuf (.inr (by omega)), Memory.wf_writeRange hwf 0 l, rfl⟩

/-! ### The script of `genHeader` -/

/-- The state in which the script's command is accepted: `FS` written, the header loaded, the word in `CMD`. -/
def State.issued (s : State) (rate : Word) (l : List Word) (i : Instr) (rest : List Input) : State :=
  ({ s with fs := rate }.loadedWith l rest).accept (encode i)

/-- R104: the lines of the script before its `WAIT`. -/
theorem reaches_issued {s : State} {rate : Word} {l : List Word} {i : Instr} {rest : List Input} (hp : s.phase = .idle)
    (hl : l.length ≤ s.hmax) (hcap : s.hmax ≤ 65535)
    (hin : s.inputs = .write 2 rate :: loadHdr l ++ issue i :: rest) : Reaches s (s.issued rate l i rest) := by
  have hfs : Reaches s { s with inputs := loadHdr l ++ issue i :: rest, fs := rate } := .of_step (step_write_fs hp hin)
  have hload : Reaches { s with inputs := loadHdr l ++ issue i :: rest, fs := rate }
      ({ s with fs := rate }.loadedWith l (issue i :: rest)) := ⟨_, runFor_loadHdr hp hl hcap rfl⟩
  exact (hfs.trans hload).trans (.of_step (step_write_cmd hp rfl))

/-- The header of bytes that the script loads is the one of R304. -/
theorem headerIs_issued {s : State} {hdr : List Byte} (rate : Word) (i : Instr) (rest : List Input)
    (hl : hdr.length ≤ s.hmax) (hcap : s.hmax ≤ 65535) :
    HeaderIs (s.issued rate (hdr.map (BitVec.setWidth 32)) i rest) hdr := by
  have hcells : (s.issued rate (hdr.map (BitVec.setWidth 32)) i rest).headerCells = _ :=
    headerCells_loadedWith rest { s with fs := rate } (by rw [List.length_map]; omega)
  have hlen := (Memory.readRange_some.1 hcells).1
  rw [List.length_map] at hlen
  exact ⟨hlen ▸ hl, hcells⟩

/-- Settles O54: the script reaches the acceptance of its command, whose check passes, and `WAIT` runs it to its end. -/
theorem genHeaderScriptDelivers : Obligations.GenHeaderScriptDelivers := by
  intro s hdr mode rate bp hp hr _ hl hcap hin
  let s' := s.issued rate (hdr.map (BitVec.setWidth 32)) (hdrInstr mode bp) [.wait]
  have hissued : Reaches s s' := reaches_issued hp (by rwa [List.length_map]) hcap hin
  have hh : HeaderIs s' hdr := headerIs_issued rate _ _ hl hcap
  have hk : tokensOf (hdrInstr mode bp) s' = some (segmentTokens .hdr (effMode mode) hdr rate bp) := by
    rw [tokensOf_hdrInstr, hh.2, Option.map_some, map_cellByte_setWidth]; rfl
  obtain ⟨reads, hwait⟩ := reaches_wait_checked (s := s') rfl rfl
    (decodeOfEncode _ (wellFormed_hdrInstr mode bp)) rfl hr hcap (fun _ => ⟨hdr, hh⟩) hk
  obtain ⟨n, hn⟩ := hissued.trans hwait
  have hended : Ended (s'.waited (segmentTokens .hdr (effMode mode) hdr rate bp) [] reads) := by
    simp [Ended, State.waited]
  exact ⟨n, _, hn, rfl, hended, rfl, rfl, rfl, rfl, rfl, fun hb => ⟨hended, .inl rfl, .inl hb⟩⟩

end Sys2Proof.Machine
end

section
/-! SUPPORT. The bit modulator and its sink: the sample count of a bit tone, audio and duration of token lists, and what
`MARK` and `SPACE` send (spec/40_bit_modulator.md R120 to R127). -/

namespace Sys2Proof.Machine

/-! ### The sample count of a bit tone -/

theorem exactSamples_eq (r : Word) : exactSamples r = (r.toNat : ℚ) * 100 / 52083 := by
  rw [exactSamples, consts]
  ring

theorem exactSamples_le_samplesLow_add_one (r : Word) : exactSamples r ≤ samplesLow r + 1 := by
  have hround : ⌈exactSamples r⌉₊ ≤ samplesLow r + 1 := Nat.le_add_of_sub_le le_rfl
  calc exactSamples r ≤ ⌈exactSamples r⌉₊ := Nat.le_ceil _
    _ ≤ samplesLow r + 1 := mod_cast hround

theorem samplesHigh_le_exactSamples_add_one (r : Word) : (samplesHigh r : ℚ) ≤ exactSamples r + 1 := by
  have hnonneg : 0 ≤ exactSamples r := by rw [exactSamples_eq]; positivity
  rw [samplesHigh, Nat.cast_add, Nat.cast_one]
  exact add_le_add_left (Nat.floor_le hnonneg) 1

/-- Settles O55: the count is an admitted one, and both ends of the admitted range are within one of the exact number. -/
theorem sampleCountWithinOne : Obligations.SampleCountWithinOne := by
  intro k r
  obtain ⟨hlow, hhigh⟩ := samplesPerBit_admitted k r
  have hlow' : (samplesLow r : ℚ) ≤ samplesPerBit k r := mod_cast hlow
  have hhigh' : (samplesPerBit k r : ℚ) ≤ samplesHigh r := mod_cast hhigh
  have hceil := exactSamples_le_samplesLow_add_one r
  have hfloor := samplesHigh_le_exactSamples_add_one r
  rw [← exactSamples_eq, abs_le]
  constructor <;> linarith

/-! ### Audio and duration of a token list -/

theorem consts_bitMs : consts.bitMs = 100000 / 52083 := rfl

theorem toneSpec_eq (k : ToneKind) (r : Word) :
    toneSpec k r =
      { hz := toneHz k, ms := 1000 / (52083 / 100), gainDb := -3, depth := 16, channels := 1, rate := r } := by
  have hms : consts.bitMs = 1000 / (52083 / 100) := by rw [consts_bitMs]; norm_num
  rw [toneSpec, hms]
  rfl

@[simp] theorem audio_singleton (t : Token) : audio [t] = tokenAudio t := List.append_nil _

@[simp] theorem durMs_singleton (t : Token) : durMs [t] = tokenMs t := add_zero _

@[simp] theorem audio_append (l₁ l₂ : List Token) : audio (l₁ ++ l₂) = audio l₁ ++ audio l₂ := List.flatMap_append

@[simp] theorem durMs_append (l₁ l₂ : List Token) : durMs (l₁ ++ l₂) = durMs l₁ + durMs l₂ := by
  induction l₁ with
  | nil => exact (zero_add _).symm
  | cons t rest ih => rw [List.cons_append, durMs_cons, durMs_cons, ih, add_assoc]

/-- R120, R121: the two tones differ in frequency alone. -/
theorem audio_tone (b : Bool) (r : Word) (bp : Bool) :
    audio [tone b r bp] =
      [.tone
        { hz := if b then 20833 / 10 else 15625 / 10, ms := 1000 / (52083 / 100), gainDb := -3, depth := 16,
          channels := 1, rate := r }] := by
  cases b with
  | false => exact congrArg (fun spec => [AudioPart.tone spec]) (toneSpec_eq .space r)
  | true => exact congrArg (fun spec => [AudioPart.tone spec]) (toneSpec_eq .mark r)

/-- R126: one tone of either kind lasts one `BIT_MS`. -/
theorem durMs_tone (b : Bool) (r : Word) (bp : Bool) : durMs [tone b r bp] = 100000 / 52083 := by
  rw [durMs_singleton, tokenMs_tone, consts_bitMs]

/-- R127: every piece of a buffer has the one format of its tokens' pieces. -/
theorem audio_format {l : List Token} {part : AudioPart} (h : part ∈ audio l) :
    part.depth = consts.toneDepth ∧ part.channels = consts.channels := by
  obtain ⟨t, -, ht⟩ := List.mem_flatMap.1 h
  exact tokenAudio_format ht

/-- Settles O56: token by token from the constants of R6, then over concatenations. -/
theorem audioAndDurationOfTokens : Obligations.AudioAndDurationOfTokens := by
  refine ⟨fun r bp d => ?_, audio_nil, durMs_nil,
    fun l₁ l₂ => ⟨durMs_append l₁ l₂, audio_append l₁ l₂, fun _ => audio_format⟩⟩
  exact ⟨audio_tone true r bp, audio_tone false r bp, rfl, rfl, durMs_tone true r bp, durMs_tone false r bp, durMs_singleton _,
    durMs_singleton _⟩

/-! ### What the modulator's commands send -/

/-- R100, R126: a command that reads no header sends its body, and the `END` after it counts as one token and lasts 0 ms. -/
theorem sends_plain {i : Instr} {w : Word} {body : Word → List Token} {bp : Bool} {s : State} {word : Nat}
    {ms : ℚ} (hword : encode i = BitVec.ofNat 32 (bp.toNat * 256 + word))
    (hexec : exec i s = plainCommand w body bp s) (hms : durMs (body s.fs) = ms) :
    Sends i word s (body s.fs) bp ((body s.fs).length + 1) ms := by
  refine ⟨hword, performs_plain s hexec, List.length_append, ?_⟩
  rw [durMs_append, hms, durMs_singleton]
  exact add_zero ms

/-- Settles O12: both are commands without a header whose body is one tone. -/
theorem markAndSpaceSend : Obligations.MarkAndSpaceSend := by
  intro s
  exact ⟨sends_plain (body := bodyMark) rfl rfl (durMs_tone true s.fs false),
    sends_plain (body := bodySpace) rfl rfl (durMs_tone false s.fs false)⟩

end Sys2Proof.Machine
end

section
/-! SUPPORT. The serializer by position, the duration of what it yields, and what `ENC` sends
(spec/41_byte_serializer.md R140 to R142). -/

namespace Sys2Proof.Machine

/-! ### The serializer by position -/

/-- R140: bit `j` of a byte is the `j`-th to leave. -/
theorem bits_getElem? (b : Byte) {j : Nat} (h : j < 8) : (bits b)[j]? = some (b.getLsbD j) := by
  interval_cases j <;> rfl

/-- R141: the first eight tokens are those of the first byte. -/
theorem encodeBits_cons_getElem?_lt (b : Byte) (rest : List Byte) (r : Word) (bp : Bool) {j : Nat} (h : j < 8) :
    (encodeBits (b :: rest) r bp)[j]? = some (tone (b.getLsbD j) r bp) := by
  rw [encodeBits_cons, List.getElem?_append_left (by simpa using h), List.getElem?_map, bits_getElem? b h,
    Option.map_some]

/-- R141: from the ninth on, the tokens are those of the bytes after the first. -/
theorem encodeBits_cons_getElem?_add (b : Byte) (rest : List Byte) (r : Word) (bp : Bool) (k : Nat) :
    (encodeBits (b :: rest) r bp)[k + 8]? = (encodeBits rest r bp)[k]? := by
  rw [encodeBits_cons, List.getElem?_append_right (by simp), List.length_map, bits_length, Nat.add_sub_cancel]

theorem encodeBits_getElem? (l : List Byte) (r : Word) (bp : Bool) (k : Nat) :
    (encodeBits l r bp)[k]? = l[k / 8]?.map fun b => tone (b.getLsbD (k % 8)) r bp := by
  induction l generalizing k with
  | nil => rfl
  | cons b rest ih =>
    rcases Nat.lt_or_ge k 8 with h | h
    · rw [encodeBits_cons_getElem?_lt b rest r bp h, Nat.div_eq_of_lt h, Nat.mod_eq_of_lt h, List.getElem?_cons_zero,
        Option.map_some]
    · obtain ⟨k, rfl⟩ := Nat.exists_eq_add_of_le' h
      rw [encodeBits_cons_getElem?_add, ih, Nat.add_div_right k (by decide), Nat.add_mod_right, List.getElem?_cons_succ]

/-- Settles O7: by induction on the bytes, each giving eight tokens. -/
theorem encodeBitsByPosition : Obligations.EncodeBitsByPosition := by
  intro bytes r bp
  refine ⟨encodeBits_length bytes r bp, fun k h => ?_, fun t ht => ?_⟩
  · have hbyte : k / 8 < bytes.length := Nat.div_lt_of_lt_mul h
    rw [encodeBits_getElem?, List.getElem?_eq_getElem hbyte, Option.map_some]
  · obtain ⟨b, rfl⟩ := encodeBits_mem ht
    exact tone_isTone b r bp

/-! ### What `ENC` sends -/

/-- R126: tones alone last one `BIT_MS` each. -/
theorem durMs_of_tones {l : List Token} (h : ∀ t ∈ l, ∃ b r bp, t = tone b r bp) :
    durMs l = l.length * (100000 / 52083) := by
  induction l with
  | nil => simp
  | cons t rest ih =>
    obtain ⟨⟨b, r, bp, rfl⟩, hrest⟩ := List.forall_mem_cons.1 h
    rw [durMs_cons, ih hrest, tokenMs_tone, consts_bitMs, List.length_cons, Nat.cast_succ]
    ring

/-- R126, R141: eight bits a byte, one `BIT_MS` a bit. -/
theorem durMs_encodeBits (l : List Byte) (r : Word) (bp : Bool) :
    durMs (encodeBits l r bp) = 8 * l.length * (100000 / 52083) := by
  rw [durMs_of_tones fun t ht => (encodeBits_mem ht).imp fun _ h => ⟨r, bp, h⟩, encodeBits_length, Nat.cast_mul,
    Nat.cast_ofNat]

/-- R100, R126: a command that reads a loaded header sends the body it makes of that header; the `END` after it counts
as one token and lasts 0 ms. -/
theorem sends_header {i : Instr} {w : Word} {body : List Byte → Word → List Token} {bp : Bool} {s : State}
    {hdr : List Byte} {word count : Nat} {ms : ℚ} (hword : encode i = BitVec.ofNat 32 (bp.toNat * 256 + word))
    (hexec : exec i s = headerCommand w body bp s) (hh : HeaderIs s hdr)
    (hcount : (body hdr s.fs).length + 1 = count) (hms : durMs (body hdr s.fs) = ms) :
    Sends i word s (body hdr s.fs) bp count ms := by
  refine ⟨hword, performs_header hexec hh, List.length_append.trans hcount, ?_⟩
  rw [durMs_append, hms, durMs_singleton]
  exact add_zero ms

/-- Settles O13: a command with a header whose body is the serialized header. -/
theorem encSends : Obligations.EncSends := by
  intro s hdr hh
  exact sends_header (body := bodyEnc) rfl rfl hh (congrArg (· + 1) (encodeBits_length hdr s.fs false))
    (durMs_encodeBits hdr s.fs false)

end Sys2Proof.Machine
end

section
/-! SUPPORT. The shape of a sounding segment: three bursts, the silences between them and what stands after the last;
its size and nominal duration (spec/42_frame_header.md R160 to R165, R177 to R179). -/

namespace Sys2Proof.Machine

/-! ### Three bursts -/

section
variable (burst₀ burst₁ burst₂ : List Byte) (pause tail : List Token) (rate : Word) (bp : Bool)

theorem threeBursts_length :
    (threeBursts burst₀ burst₁ burst₂ pause tail rate bp).length =
      8 * (burst₀.length + burst₁.length + burst₂.length) + 2 * pause.length + tail.length := by
  simp only [threeBursts, List.length_append, encodeBits_length]
  ring

theorem durMs_threeBursts :
    durMs (threeBursts burst₀ burst₁ burst₂ pause tail rate bp) =
      8 * ((burst₀.length + burst₁.length + burst₂.length : Nat) : ℚ) * (100000 / 52083)
        + 2 * durMs pause + durMs tail := by
  simp only [threeBursts, durMs_append, durMs_encodeBits]
  push_cast
  ring

end

/-- R126: a silence lasts its duration. -/
theorem durMs_sil (d : BitVec 16) (fs : Word) (bp : Bool) : durMs [.sil d fs bp] = (d.toNat : ℚ) := durMs_singleton _

/-! ### The segment of a sounding mode -/

/-- R163: a burst is the preamble, the payload and the mode's suffix, after the mode's lead byte in burst 0. -/
theorem burstBytes_eq (k : SegmentKind) (m : Mode) (hdr : List Byte) (n : Nat) :
    burstBytes k m hdr n
      = (if n = 0 then (modeRow m).lead else []) ++ preamble ++ payload k hdr ++ (modeRow m).suffix := by
  cases m <;> rfl

/-- R160, R164: after each of the first two bursts of a sounding mode stands the mode's gap. -/
theorem gap_between {m : Mode} (h₁ : m ≠ .npas) (h₂ : m ≠ .wea) (k : SegmentKind) {n : Nat} (hn : n < 2) (fs : Word)
    (bp : Bool) : gap k m n fs bp = [.sil (BitVec.ofNat 16 (modeRow m).gapMs) fs bp] := by
  have hinner : n + 1 < (modeRow m).bursts := by rw [modeRow_bursts h₁ h₂]; omega
  simp only [gap, gapAfter, if_pos hinner]

/-- R164: the one gap length that differs. -/
theorem gapMs_eq (m : Mode) : (modeRow m).gapMs = if m = .trilithic then 850 else 1000 := by
  cases m <;> rfl

/-- R160: the segment of a sounding mode is three bursts. -/
theorem frameSegment_threeBursts {m : Mode} (h₁ : m ≠ .npas) (h₂ : m ≠ .wea) (k : SegmentKind) (hdr : List Byte)
    (fs : Word) (bp : Bool) :
    frameSegment k m hdr fs bp =
      threeBursts (burstBytes k m hdr 0) (burstBytes k m hdr 1) (burstBytes k m hdr 2)
        [.sil (BitVec.ofNat 16 (modeRow m).gapMs) fs bp] (gap k m 2 fs bp) (toneRate m fs) bp := by
  rw [segment_sounding k hdr fs bp h₁ h₂, gap_between h₁ h₂ k Nat.zero_lt_two, gap_between h₁ h₂ k Nat.one_lt_two]
  simp only [threeBursts, List.append_assoc]

/-- R163: with neither lead nor suffix, each burst is the preamble and the payload. -/
theorem frameSegment_of_plain {m : Mode} (h₁ : m ≠ .npas) (h₂ : m ≠ .wea) (hlead : (modeRow m).lead = [])
    (hsuffix : (modeRow m).suffix = []) (k : SegmentKind) (hdr : List Byte) (fs : Word) (bp : Bool) :
    frameSegment k m hdr fs bp =
      threeBursts (preamble ++ payload k hdr) (preamble ++ payload k hdr) (preamble ++ payload k hdr)
        [.sil (BitVec.ofNat 16 (modeRow m).gapMs) fs bp] (gap k m 2 fs bp) (toneRate m fs) bp := by
  have hburst (n : Nat) : burstBytes k m hdr n = preamble ++ payload k hdr := by
    rw [burstBytes_eq, hlead, hsuffix, ite_self, List.nil_append, List.append_nil]
  rw [frameSegment_threeBursts h₁ h₂, hburst, hburst, hburst]

/-- R126, R164: how long the gap of a mode lasts. -/
theorem durMs_gapMs (m : Mode) (fs : Word) (bp : Bool) :
    durMs [.sil (BitVec.ofNat 16 (modeRow m).gapMs) fs bp] = if m = .trilithic then 850 else 1000 := by
  rw [durMs_sil, gapMs_eq]
  split <;> rfl

/-- R126, R164: a silence after a burst is one token and lasts as long as the mode table says; 16 bits hold it. -/
theorem gap_size_of_gapAfter {k : SegmentKind} {m : Mode} {n ms : Nat} (h : gapAfter k m n = some ms) (fs : Word)
    (bp : Bool) : (gap k m n fs bp).length = 1 ∧ durMs (gap k m n fs bp) = ms := by
  have hms : ms % 2 ^ 16 = ms := by
    rcases gapAfter_values h with rfl | rfl | rfl <;> rfl
  simp only [gap, h, durMs_sil, BitVec.toNat_ofNat, hms, List.length_singleton, and_self]

theorem gap_of_gapAfter_none {k : SegmentKind} {m : Mode} {n : Nat} (h : gapAfter k m n = none) (fs : Word)
    (bp : Bool) : gap k m n fs bp = [] := by
  simp only [gap, h]

/-- Settles O9: three bursts and two gaps in every sounding mode, and a silence after the last burst in three cases. -/
theorem segmentSizeAndDuration : Obligations.SegmentSizeAndDuration := by
  intro k m hdr fs bp h₁ h₂ n tail
  obtain ⟨hsize, hdur⟩ : (gap k m 2 fs bp).length = tail.1 ∧ durMs (gap k m 2 fs bp) = tail.2 := by
    cases m
    case npas | wea => contradiction
    case digital => exact gap_size_of_gapAfter (ms := 1000) (by cases k <;> rfl) fs bp
    case trilithic =>
      cases k with
      | hdr => exact gap_size_of_gapAfter (ms := 150) rfl fs bp
      | eom => exact ⟨rfl, rfl⟩
    all_goals rw [gap_of_gapAfter_none (by cases k <;> rfl)]; exact ⟨rfl, rfl⟩
  rw [frameSegment_threeBursts h₁ h₂, threeBursts_length, durMs_threeBursts, durMs_gapMs, hsize, hdur]
  exact ⟨rfl, rfl⟩

/-! ### The preamble and the marker -/

/-- Settles O8: bit 0 leaves first. -/
theorem preambleAndMarkerAsTokens : Obligations.PreambleAndMarkerAsTokens := by
  intro r bp
  exact ⟨⟨rfl, rfl⟩, encodeBits_length preamble r bp, encodeBits_length n4 r bp⟩

end Sys2Proof.Machine
end

section
/-! SUPPORT. What the header commands send on a loaded header: one rule for all of the 16 modes, then the segment of each
mode (spec/42_frame_header.md R166 to R175). -/

namespace Sys2Proof.Machine

/-! ### The header command of any mode -/

/-- R166 to R175: in each of the 16 modes `HDR` is a header command whose body is the segment of its effective mode. -/
theorem exec_hdrInstr (mode : BitVec 4) (bp : Bool) (s : State) :
    exec (hdrInstr mode bp) s =
      headerCommand (encode (hdrInstr mode bp)) (fun hdr fs => frameSegment .hdr (effMode mode) hdr fs bp) bp s := by
  unfold hdrInstr
  split
  case h_9 => rfl
  all_goals rename_i h; simp only [effMode, h]; rfl

/-- R91, R101: the command word by its fields. -/
theorem encode_hdrInstr_ofNat (mode : BitVec 4) (bp : Bool) :
    encode (hdrInstr mode bp) = BitVec.ofNat 32 (bp.toNat * 256 + (mode.toNat * 16 + 0x04)) := by
  rw [encode_hdrInstr, commandWord_eq_ofNat, Nat.add_assoc]
  rfl

/-- R175: what a header command sends on a loaded header, from the segment of its mode. -/
theorem sends_hdrInstr {mode : BitVec 4} {bp : Bool} {s : State} {hdr : List Byte} {body : List Token} {count : Nat}
    {ms : ℚ} (hh : HeaderIs s hdr) (hbody : frameSegment .hdr (effMode mode) hdr s.fs bp = body)
    (hcount : body.length + 1 = count) (hms : durMs body = ms) :
    Sends (hdrInstr mode bp) (mode.toNat * 16 + 0x04) s body bp count ms := by
  subst hbody
  exact sends_header (encode_hdrInstr_ofNat mode bp) (exec_hdrInstr mode bp s) hh hcount hms

/-- R166 to R171: three bursts of `n` bytes more than the header, with a lead before the first, one gap and some tail. -/
theorem sends_hdr_bursts {mode : BitVec 4} {bp : Bool} {s : State} {hdr lead burst : List Byte} {d : BitVec 16}
    {tail : List Token} {rate : Word} {fixed : Nat} {ms : ℚ} (n : Nat) (hh : HeaderIs s hdr)
    (hbody : frameSegment .hdr (effMode mode) hdr s.fs bp =
      threeBursts (lead ++ burst) burst burst [.sil d s.fs bp] tail rate bp)
    (hlen : burst.length = n + hdr.length) (hcount : 8 * lead.length + 24 * n + tail.length + 3 = fixed)
    (hms : (8 * lead.length + 24 * (n + hdr.length)) * (100000 / 52083) + 2 * d.toNat + durMs tail = ms) :
    Sends (hdrInstr mode bp) (mode.toNat * 16 + 0x04) s
      (threeBursts (lead ++ burst) burst burst [.sil d s.fs bp] tail rate bp) bp
      (24 * hdr.length + fixed) ms := by
  refine sends_hdrInstr hh hbody ?_ ?_
  · rw [threeBursts_length, List.length_append, List.length_singleton, hlen]
    omega
  · rw [durMs_threeBursts, List.length_append, durMs_sil, hlen, ← hms]
    push_cast
    ring

/-- R166, R167, R170, R171: three equal bursts with 1000 ms between them. -/
theorem sends_hdr_equal_bursts {mode : BitVec 4} {bp : Bool} {s : State} {hdr burst : List Byte} {rate : Word} (n : Nat)
    (hh : HeaderIs s hdr)
    (hbody : frameSegment .hdr (effMode mode) hdr s.fs bp =
      threeBursts burst burst burst [.sil 1000 s.fs bp] [] rate bp)
    (hlen : burst.length = n + hdr.length) :
    Sends (hdrInstr mode bp) (mode.toNat * 16 + 0x04) s
      (threeBursts burst burst burst [.sil 1000 s.fs bp] [] rate bp) bp
      (24 * hdr.length + (24 * n + 3)) (24 * (n + hdr.length) * (100000 / 52083) + 2000) := by
  have hd : (1000 : BitVec 16).toNat = 1000 := rfl
  refine sends_hdr_bursts (lead := []) n hh hbody hlen (by simp) ?_
  rw [hd, List.length_nil, durMs_nil]
  push_cast
  ring

/-! ### The sounding modes -/

@[simp] theorem preamble_length : preamble.length = 16 := rfl

/-- R163: a burst is the preamble, the header and a suffix. -/
theorem burst_length (hdr suffix : List Byte) :
    (preamble ++ hdr ++ suffix).length = 16 + suffix.length + hdr.length := by
  simp only [List.length_append, preamble_length]
  omega

theorem frameSegment_hdr_default (hdr : List Byte) (fs : Word) (bp : Bool) :
    frameSegment .hdr .default hdr fs bp =
      threeBursts (preamble ++ hdr) (preamble ++ hdr) (preamble ++ hdr) [.sil 1000 fs bp] [] fs bp :=
  frameSegment_of_plain (by decide) (by decide) rfl rfl .hdr hdr fs bp

/-- Settles O14: neither lead nor suffix, 16 bytes more than the header. -/
theorem hdrDefaultSends : Obligations.HdrDefaultSends := by
  intro bp s hdr hh burst
  exact sends_hdr_equal_bursts (mode := 0) 16 hh (frameSegment_hdr_default hdr s.fs bp) List.length_append

/-- Settles O15: a suffix of one byte, 17 bytes more than the header. -/
theorem hdrSageSends : Obligations.HdrSageSends := by
  intro bp s hdr hh burst
  exact sends_hdr_equal_bursts (mode := 1) 17 hh (frameSegment_threeBursts (by decide) (by decide) _ _ _ _)
    (burst_length hdr [0xFF])

/-- Settles O18: a suffix of two bytes, 18 bytes more than the header. -/
theorem hdrNwsSends : Obligations.HdrNwsSends := by
  intro bp s hdr hh burst
  exact sends_hdr_equal_bursts (mode := 4) 18 hh (frameSegment_threeBursts (by decide) (by decide) _ _ _ _)
    (burst_length hdr [0x00, 0x00])

/-- Settles O19: a suffix of three bytes, 19 bytes more than the header; the table fixes the tones' rate. -/
theorem hdrBroadcasterSends : Obligations.HdrBroadcasterSends := by
  intro bp s hdr hh burst
  exact sends_hdr_equal_bursts (mode := 5) 19 hh (frameSegment_threeBursts (by decide) (by decide) _ _ _ _)
    (burst_length hdr [0x00, 0x00, 0x00])

/-- Settles O16: the lead byte stands in burst 0 only. -/
theorem hdrDigitalSends : Obligations.HdrDigitalSends := by
  intro bp s hdr hh burst
  have hlen : burst.length = 19 + hdr.length := burst_length hdr [0xFF, 0xFF, 0xFF]
  refine sends_hdr_bursts (mode := 2) (lead := [0x00]) 19 hh
    (frameSegment_threeBursts (by decide) (by decide) _ _ _ _) hlen rfl ?_
  have hd : (1000 : BitVec 16).toNat = 1000 := rfl
  rw [durMs_sil, hd, List.length_singleton]
  push_cast
  ring

/-- Settles O17: neither lead nor suffix, but gaps of its own and a pad after the last burst. -/
theorem hdrTrilithicSends : Obligations.HdrTrilithicSends := by
  intro bp s hdr hh burst
  have hlen : burst.length = 16 + hdr.length := List.length_append
  refine sends_hdr_bursts (mode := 3) (lead := []) 16 hh
    (frameSegment_of_plain (by decide) (by decide) rfl rfl .hdr hdr s.fs bp) hlen rfl ?_
  have hd : (850 : BitVec 16).toNat = 850 := rfl
  have hd' : (150 : BitVec 16).toNat = 150 := rfl
  rw [durMs_sil, hd, hd', List.length_nil]
  push_cast
  ring

/-! ### The fallback modes -/

theorem effMode_of_unrecognized {mode : BitVec 4} (h : unrecognizedMode mode = true) : effMode mode = .default := by
  revert mode; decide

/-- Settles O21: the effective mode of an unrecognized one is `DEFAULT`. -/
theorem hdrFallbackSends : Obligations.HdrFallbackSends := by
  intro bp mode s hdr hh hmode burst
  have hmode : unrecognizedMode mode = true := decide_eq_true hmode
  have heff : effMode mode = .default := effMode_of_unrecognized hmode
  rw [← hdrInstr_of_unrecognized hmode bp]
  refine ⟨sends_hdr_equal_bursts 16 hh ?_ List.length_append, ?_⟩
  · rw [heff]
    exact frameSegment_hdr_default hdr s.fs bp
  · rw [tokensOf_hdrInstr, heff]
    exact (tokensOf_hdrInstr 0 bp s).symm

/-! ### The silent modes -/

/-- Settles O20: the segment of a silent mode is empty. -/
theorem hdrSilentModesSend : Obligations.HdrSilentModesSend := by
  intro bp s hdr hh
  exact ⟨sends_hdrInstr (mode := 6) hh (segment_npas .hdr hdr s.fs bp) rfl durMs_nil,
    sends_hdrInstr (mode := 7) hh (segment_wea .hdr hdr s.fs bp) rfl durMs_nil⟩

end Sys2Proof.Machine
end

section
/-! SUPPORT. A command without a header does the same whatever `HLEN` and `HBUF` hold; and what the end-of-message commands
send in any state: one rule for all of the 16 modes, then the segment of each (spec/43_frame_eom.md R190 to R199). -/

namespace Sys2Proof.Machine

/-! ### The header is not read -/

/-- `s` with another header. -/
def State.withHeader (s : State) (hlen : Word) (hbuf : Memory) : State := { s with hlen := hlen, hbuf := hbuf }

section
variable {s t : State} (hlen : Word) (hbuf : Memory)

/-- R38, R39: a transfer step neither reads nor writes the header. -/
theorem transfer_withHeader {toks : List Token} (h : transfer toks s = .next t) :
    transfer toks (s.withHeader hlen hbuf) = .next (t.withHeader hlen hbuf) := by
  rcases transfer_cases toks s with ⟨hr, he⟩ | ⟨-, -, he⟩ | ⟨_, hr, htok, hl, he⟩ | ⟨_, hr, htok, hl, he⟩
  all_goals rw [he] at h; cases h
  · exact transfer_stall hr
  · exact transfer_last hr htok hl
  · exact transfer_middle hr htok hl

/-- R190: nor does any of the three moments of a command without a header. -/
theorem plainCommand_withHeader {w : Word} {body : Word → List Token} {bp : Bool}
    (h : plainCommand w body bp s = .next t) :
    plainCommand w body bp (s.withHeader hlen hbuf) = .next (t.withHeader hlen hbuf) := by
  cases hp : s.phase with
  | idle => rw [plainCommand_idle hp] at h; cases h; exact plainCommand_idle hp
  | check => rw [plainCommand_check hp] at h; cases h; exact plainCommand_check hp
  | run =>
    rw [plainCommand_run hp] at h
    exact (plainCommand_run (s := s.withHeader hlen hbuf) hp).trans (transfer_withHeader hlen hbuf h)

end

/-- Settles O52: `MARK`, `SPACE` and the `EOM` commands are the commands of the shape that reads no header. -/
theorem headerlessCommandsIgnoreTheHeader : Obligations.HeaderlessCommandsIgnoreTheHeader := by
  intro i s hlen hbuf hi
  obtain ⟨body, bp, hexec, htoks⟩ := exec_plain hi
  refine ⟨by rw [htoks, htoks], fun t h => ?_⟩
  rw [hexec] at h ⊢
  exact plainCommand_withHeader hlen hbuf h

/-! ### The end-of-message command of any mode -/

/-- R191 to R199: in each of the 16 modes `EOM` is a command without a header whose body is the segment of its effective
mode. -/
theorem exec_eomInstr (mode : BitVec 4) (bp : Bool) (s : State) :
    exec (eomInstr mode bp) s =
      plainCommand (encode (eomInstr mode bp)) (fun fs => frameSegment .eom (effMode mode) [] fs bp) bp s := by
  unfold eomInstr
  split
  case h_9 => rfl
  all_goals rename_i h; simp only [effMode, h]; rfl

/-- R91, R101: the command word by its fields. -/
theorem encode_eomInstr_ofNat (mode : BitVec 4) (bp : Bool) :
    encode (eomInstr mode bp) = BitVec.ofNat 32 (bp.toNat * 256 + (mode.toNat * 16 + 0x05)) := by
  rw [encode_eomInstr, commandWord_eq_ofNat, Nat.add_assoc]
  rfl

/-- R190: what an end-of-message command sends, from the segment of its mode. -/
theorem sends_eomInstr {mode : BitVec 4} {bp : Bool} {s : State} {body : List Token} {ms : ℚ}
    (hbody : frameSegment .eom (effMode mode) [] s.fs bp = body) (hms : durMs body = ms) :
    Sends (eomInstr mode bp) (mode.toNat * 16 + 0x05) s body bp (body.length + 1) ms := by
  subst hbody
  exact sends_plain (encode_eomInstr_ofNat mode bp) (exec_eomInstr mode bp s) hms

/-- R191 to R196: three bursts of `bits` tones in all, with a lead before the first, one gap and some tail, whose silences
last `silence` ms in all. -/
theorem sends_eom_bursts {mode : BitVec 4} {bp : Bool} {s : State} {lead burst : List Byte} {d : BitVec 16}
    {tail : List Token} {rate : Word} {silence : ℚ} (bits : Nat)
    (hbody : frameSegment .eom (effMode mode) [] s.fs bp =
      threeBursts (lead ++ burst) burst burst [.sil d s.fs bp] tail rate bp)
    (hbits : 8 * lead.length + 24 * burst.length = bits)
    (hsilence : 2 * durMs [.sil d s.fs bp] + durMs tail = silence) :
    Sends (eomInstr mode bp) (mode.toNat * 16 + 0x05) s
      (threeBursts (lead ++ burst) burst burst [.sil d s.fs bp] tail rate bp) bp
      (bits + tail.length + 3) (bits * (100000 / 52083) + silence) := by
  have hcount : (threeBursts (lead ++ burst) burst burst [.sil d s.fs bp] tail rate bp).length + 1
      = bits + tail.length + 3 := by
    rw [threeBursts_length, List.length_append, List.length_singleton]
    omega
  rw [← hcount]
  refine sends_eomInstr hbody ?_
  rw [durMs_threeBursts, List.length_append, ← hbits, ← hsilence]
  push_cast
  ring

/-- R126, R164: the gap of every sounding mode but `TRILITHIC`. -/
theorem durMs_sil_1000 (fs : Word) (bp : Bool) : durMs [.sil 1000 fs bp] = 1000 := durMs_sil 1000 fs bp

/-- R191, R192, R195, R196: three equal bursts with 1000 ms between them. -/
theorem sends_eom_equal_bursts {mode : BitVec 4} {bp : Bool} {s : State} {burst : List Byte} {rate : Word} (bits : Nat)
    (hbody : frameSegment .eom (effMode mode) [] s.fs bp =
      threeBursts burst burst burst [.sil 1000 s.fs bp] [] rate bp)
    (hbits : 24 * burst.length = bits) :
    Sends (eomInstr mode bp) (mode.toNat * 16 + 0x05) s
      (threeBursts burst burst burst [.sil 1000 s.fs bp] [] rate bp) bp
      (bits + 3) (bits * (100000 / 52083) + 2000) :=
  sends_eom_bursts (lead := []) bits hbody ((Nat.zero_add _).trans hbits) (by rw [durMs_sil_1000, durMs_nil]; norm_num)

/-! ### The sounding modes -/

theorem frameSegment_eom_default (fs : Word) (bp : Bool) :
    frameSegment .eom .default [] fs bp =
      threeBursts (preamble ++ n4) (preamble ++ n4) (preamble ++ n4) [.sil 1000 fs bp] [] fs bp :=
  frameSegment_of_plain (by decide) (by decide) rfl rfl .eom [] fs bp

/-- Settles O22: neither lead nor suffix, 20 bytes a burst. -/
theorem eomDefaultSends : Obligations.EomDefaultSends := by
  intro bp s burst
  exact sends_eom_equal_bursts (mode := 0) 480 (frameSegment_eom_default s.fs bp) rfl

/-- Settles O23: a suffix of one byte, 21 bytes a burst. -/
theorem eomSageSends : Obligations.EomSageSends := by
  intro bp s burst
  exact sends_eom_equal_bursts (mode := 1) 504 (frameSegment_threeBursts (by decide) (by decide) _ _ _ _) rfl

/-- Settles O26: a suffix of two bytes, 22 bytes a burst. -/
theorem eomNwsSends : Obligations.EomNwsSends := by
  intro bp s burst
  exact sends_eom_equal_bursts (mode := 4) 528 (frameSegment_threeBursts (by decide) (by decide) _ _ _ _) rfl

/-- Settles O27: a suffix of three bytes, 23 bytes a burst; the table fixes the tones' rate. -/
theorem eomBroadcasterSends : Obligations.EomBroadcasterSends := by
  intro bp s burst
  exact sends_eom_equal_bursts (mode := 5) 552 (frameSegment_threeBursts (by decide) (by decide) _ _ _ _) rfl

/-- Settles O24: the lead byte stands in burst 0 only; a silence stands after each of the three. -/
theorem eomDigitalSends : Obligations.EomDigitalSends := by
  intro bp s burst
  exact sends_eom_bursts (mode := 2) (lead := [0x00]) 560
    (frameSegment_threeBursts (by decide) (by decide) _ _ _ _) rfl (by rw [durMs_sil_1000]; norm_num)

/-- Settles O25: neither lead nor suffix, gaps of its own, and no pad after the last burst. -/
theorem eomTrilithicSends : Obligations.EomTrilithicSends := by
  intro bp s burst
  have hpause : durMs [.sil 850 s.fs bp] = 850 := durMs_gapMs .trilithic s.fs bp
  exact sends_eom_bursts (mode := 3) (lead := []) 480
    (frameSegment_of_plain (by decide) (by decide) rfl rfl .eom [] s.fs bp) rfl (by rw [hpause, durMs_nil]; norm_num)

/-! ### The fallback modes -/

/-- Settles O29: the effective mode of an unrecognized one is `DEFAULT`. -/
theorem eomFallbackSends : Obligations.EomFallbackSends := by
  intro bp mode s hmode burst
  have hmode : unrecognizedMode mode = true := decide_eq_true hmode
  have heff : effMode mode = .default := effMode_of_unrecognized hmode
  rw [← eomInstr_of_unrecognized hmode bp]
  refine ⟨sends_eom_equal_bursts 480 ?_ rfl, ?_⟩
  · rw [heff]
    exact frameSegment_eom_default s.fs bp
  · rw [tokensOf_eomInstr, heff]
    exact (tokensOf_eomInstr 0 bp s).symm

/-! ### The silent modes -/

/-- Settles O28: the segment of a silent mode is empty. -/
theorem eomSilentModesSend : Obligations.EomSilentModesSend := by
  intro bp s
  exact ⟨sends_eomInstr (mode := 6) (segment_npas .eom [] s.fs bp) durMs_nil,
    sends_eomInstr (mode := 7) (segment_wea .eom [] s.fs bp) durMs_nil⟩

end Sys2Proof.Machine
end

section
/-! SUPPORT. The token list as a function of what `Tokens()` reads, and the duration of the host's alert from its parts
(spec/44_host_alert_assembler.md R225, R227). -/

namespace Sys2Proof.Machine

/-! ### What a token list depends on -/

/-- R67: of `HBUF`, a command sees the cells below `HLEN` alone. -/
theorem State.headerCells_eq_of_read_eq {s t : State} (hl : t.hlen = s.hlen)
    (h : ∀ i, i < s.hlen.toNat → Memory.read t.hbuf i = Memory.read s.hbuf i) : t.headerCells = s.headerCells := by
  rw [State.headerCells, State.headerCells, hl]
  exact Memory.readRange_congr fun j hj => by simpa using h j hj

/-- R100: a token list reads the header through its cells below `HLEN`, or not at all. -/
theorem tokensOf_eq_of_headerCells_eq {i : Instr} {s t : State} (hf : t.fs = s.fs)
    (hc : t.headerCells = s.headerCells) : tokensOf i t = tokensOf i s := by
  cases hh : readsHeader i with
  | false => obtain ⟨_, _, -, hk⟩ := exec_plain hh; rw [hk, hk, hf]
  | true => obtain ⟨_, _, -, hk⟩ := exec_header hh; rw [hk, hk, hf, hc]

/-- Settles O51: equal command words decode alike, and the decoded instruction finds the same header cells. -/
theorem tokensDependOnInputsAlone : Obligations.TokensDependOnInputsAlone := by
  intro s t hcmd hfs hhlen hread
  have hcells : t.headerCells = s.headerCells := State.headerCells_eq_of_read_eq hhlen hread
  rw [State.tokens, State.tokens, hcmd]
  cases decode s.cmd with
  | ok i => exact tokensOf_eq_of_headerCells_eq hfs hcells
  | rejected _ => rfl

/-! ### The duration of the alert -/

@[simp] theorem Sound.ms_none : Sound.none.ms = 0 := rfl

@[simp] theorem Sound.ms_segment (l : List Token) : (Sound.segment l).ms = durMs l := rfl

@[simp] theorem Sound.ms_payload (d : ℚ) (rate : Word) : (Sound.payload d rate).ms = d := rfl

@[simp] theorem Sound.ms_cat (a b : Sound) : (Sound.cat a b).ms = a.ms + b.ms := rfl

@[simp] theorem Sound.ms_filtered (a : Sound) : a.filtered.ms = a.ms := rfl

@[simp] theorem ms_pause (ms : Nat) (rate : Word) : (pause ms rate).ms = ms := rfl

/-- R223, step 3: the attention tone brings its second of silence with it. -/
theorem AlertArgs.ms_attentionPart (a : AlertArgs) :
    a.attentionPart.ms =
      if a.attention || forcesAttention a.mode then (genAttentionTone a.mode a.rate a.tag).ms + 1000 else 0 := by
  rw [AlertArgs.attentionPart, apply_ite Sound.ms, Sound.ms_cat, ms_pause, Sound.ms_none, Nat.cast_ofNat]

/-- R223, step 4. -/
theorem AlertArgs.ms_eomPart (a : AlertArgs) :
    a.eomPart.ms = if a.endOfMessage then durMs (frameSegment .eom a.mode [] a.rate a.tag) else 0 := by
  rw [AlertArgs.eomPart, apply_ite Sound.ms, Sound.ms_segment, Sound.ms_none]

/-- R221, R236: the alert lasts as long as its parts in order; the filter over the whole adds nothing. -/
theorem ms_genEas (a : AlertArgs) :
    (genEas a).ms =
      500 + (durMs (frameSegment .hdr a.mode a.header a.rate a.tag)
        + (a.attentionPart.ms + (a.payloadMs + (a.eomPart.ms + 500)))) := by
  rw [genEas, apply_ite Sound.ms, Sound.ms_filtered, ite_self]
  simp

/-- Settles O57: the parts in order, each with its own duration. -/
theorem alertDurationComposes : Obligations.AlertDurationComposes := by
  intro a
  rw [ms_genEas, AlertArgs.ms_attentionPart, AlertArgs.ms_eomPart]
  ring

end Sys2Proof.Machine
end

section
/-! SUPPORT. The end of a host script whose command fails its check (spec/70_reset_and_hazards.md R316,
spec/60_exceptions.md R264, R268). -/

namespace Sys2Proof.Machine

/-! ### A failed check under `WAIT` -/

/-- The state of a block whose check has raised an error and on which the `WAIT` has then ended. -/
def State.failed (s : State) (e : BlockError) (info : Word) (rest : List Input) (reads : List Word) : State :=
  { s.raise e info with inputs := rest, reads := reads }

/-- R37, R264: the check step on a loaded header that holds a code point above 255. -/
theorem sequencerTurn_badCell {s : State} {i : Instr} {cells : List Word} {k : Nat} (hp : s.phase = .check)
    (hd : decode s.cmd = .ok i) (hr : readsHeader i = true) (hle : s.hlen.toNat ≤ s.hmax)
    (hc : s.headerCells = some cells) (hk : leastBadIndex cells = some k) :
    sequencerTurn s = .next (s.raise .encodingError (BitVec.ofNat 32 k)) := by
  rw [sequencerTurn_check hp hd, if_pos hr, checkHeader_badCell hle hc hk]

/-- R103, R268: a turn that raises an error leaves the block idle, so the next poll ends the `WAIT`; the sink has no part
in it. -/
theorem reaches_wait_failed {s : State} {e : BlockError} {info : Word} {rest : List Input} (hp : s.phase ≠ .idle)
    (hi : s.inputs = .wait :: rest)
    (hturn : sequencerTurn (s.logRead s.statusWord) = .next ((s.logRead s.statusWord).raise e info)) :
    ∃ reads, Reaches s (s.failed e info rest reads) :=
  ⟨_, (reaches_wait_turn hi hp hturn).trans (.of_step (step_wait_idle hi rfl))⟩

/-! ### What the script's command reads -/

theorem headerCells_issued {s : State} {l : List Word} (rate : Word) (i : Instr) (rest : List Input)
    (hl : l.length ≤ 65535) : (s.issued rate l i rest).headerCells = some l :=
  headerCells_loadedWith rest { s with fs := rate } hl

theorem hlen_issued_le {s : State} {l : List Word} (rate : Word) (i : Instr) (rest : List Input)
    (hl : l.length ≤ s.hmax) (hcap : s.hmax ≤ 65535) :
    (s.issued rate l i rest).hlen.toNat ≤ (s.issued rate l i rest).hmax := by
  rw [← (Memory.readRange_some.1 (headerCells_issued rate i rest (hl.trans hcap))).1]
  exact hl

/-! ### How a script may end -/

/-- R260: an error is known by its code. -/
theorem errorCode_injective : Function.Injective errorCode := by
  intro e e'
  cases e <;> cases e' <;> decide

/-- R316: with its lines done and no write dropped, a script that ends with an error ends well exactly when it expects that
error. -/
theorem endedWell_iff_expects {s : State} {e : BlockError} {expects : Expectation} (hs : Ended s)
    (herr : s.err = errorCode e) (hb : s.busywr = false) : EndedWell expects s ↔ e ∈ expects.errors := by
  have hne : s.err ≠ 0 := herr ▸ errorCode_ne_zero e
  constructor
  · rintro ⟨-, hzero | ⟨e', hmem, he'⟩, -⟩
    · exact absurd hzero hne
    · exact errorCode_injective (herr.symm.trans he') ▸ hmem
  · exact fun hmem => ⟨hs, .inr ⟨e, hmem, herr⟩, .inl hb⟩

/-- Settles O58: the script reaches the acceptance of `ENC`, whose check raises the error, and `WAIT` ends on it. -/
theorem failingScriptEndsAsExpected : Obligations.FailingScriptEndsAsExpected := by
  intro s l rate k hk hp hl hcap hbad hleast hin
  let s' := s.issued rate l .enc [.wait]
  have hissued : Reaches s s' := reaches_issued hp hl hcap (hin.trans (by simp [callEncodeBits]))
  have hcheck := sequencerTurn_badCell (s := s'.logRead s'.statusWord) (i := .enc) rfl (decodeOfEncode .enc rfl) rfl
    (hlen_issued_le rate .enc [.wait] hl hcap) (headerCells_issued rate .enc [.wait] (hl.trans hcap))
    (leastBadIndex_some.2 ⟨hk, hbad, hleast⟩)
  obtain ⟨reads, hwait⟩ := reaches_wait_failed (s := s') (by simp [s', State.issued]) rfl hcheck
  obtain ⟨n, hn⟩ := hissued.trans hwait
  have hended : Ended (s'.failed .encodingError (BitVec.ofNat 32 k) [] reads) := by
    simp [Ended, State.failed]
  exact ⟨n, _, hn, hended, rfl, rfl, rfl, rfl, fun hb _ => endedWell_iff_expects hended rfl hb⟩

end Sys2Proof.Machine
end
